-- ==== Sys2Proof/Word.lean ====
section
/-! DEFINITION. The widths of the block's values (00_scope.md R3, 30_encoding.md R60). -/

namespace Sys2Proof

/-- A byte of the wire or of a PUSH operand, unsigned (R3). -/
abbrev Byte := BitVec 8

/-- A 32-bit word: the CRC, the chunk length, the packed chunk type, a value read by RD (R3, R66). -/
abbrev Word := BitVec 32

/-- A command word `cw` of 40 bits (R60). -/
abbrev CmdWord := BitVec 40

end Sys2Proof
end

