-- ==== Sys2Proof/Syntax.lean ====
section
/-! DEFINITION. The nine commands of the block, one constructor per row of the opcode table (30_encoding.md R62). -/

namespace Sys2Proof

/-- A decoded command with its operand in the form R63 gives it. -/
inductive Instr where
  /-- NOP, operand form zero (R161). -/
  | nop
  /-- CLR, operand form zero: soft reset (R162). -/
  | clr
  /-- CRCS, operand form zero: start a standalone CRC (R85). -/
  | crcs
  /-- TYPS, operand form zero: start a chunk-type load (R102). -/
  | typs
  /-- PRSS, operand form zero: start a chunk parse (R137). -/
  | prss
  /-- BLDS, operand form len32: start a serialization with declared data length `n` (R122). -/
  | blds (n : Word)
  /-- PUSH, operand form byte: one input byte (R163). -/
  | push (b : Byte)
  /-- END, operand form zero: no more input follows (R164). -/
  | endInput
  /-- RD, operand form regnum: read the view numbered `r` (R166). -/
  | rd (r : Word)
  deriving DecidableEq, Repr

/-- The nine opcodes by name (R62). -/
inductive Opcode where
  | nop | clr | crcs | typs | prss | blds | push | endInput | rd
  deriving DecidableEq, Repr

/-- The opcode of a command. -/
def Instr.opcode : Instr → Opcode
  | .nop => .nop
  | .clr => .clr
  | .crcs => .crcs
  | .typs => .typs
  | .prss => .prss
  | .blds _ => .blds
  | .push _ => .push
  | .endInput => .endInput
  | .rd _ => .rd

/-- The operand field `opr` of a command: 0 in form zero, the byte zero-extended in form byte (R63). -/
def Instr.operand : Instr → Word
  | .nop => 0#32
  | .clr => 0#32
  | .crcs => 0#32
  | .typs => 0#32
  | .prss => 0#32
  | .blds n => n
  | .push b => b.setWidth 32
  | .endInput => 0#32
  | .rd r => r

end Sys2Proof
end

