-- ==== Sys2Proof/WellFormed.lean ====
section
/-! DEFINITION. Which commands have a legal operand (30_encoding.md R63).
The operand types of `Instr` already exclude the other violations: a form zero command carries no operand and PUSH a byte. -/

namespace Sys2Proof

/-- The operand is among the legal values of its form: for RD a register number 0 to 4 (R63, R49). -/
def Instr.wellFormed : Instr → Bool
  | .nop => true
  | .clr => true
  | .crcs => true
  | .typs => true
  | .prss => true
  | .blds _ => true
  | .push _ => true
  | .endInput => true
  | .rd r => decide (r.toNat ≤ 4)

/-- A command with a legal operand. -/
abbrev Instr.WellFormed (i : Instr) : Prop := i.wellFormed = true

end Sys2Proof
end

