-- ==== Sys2Proof/Decode.lean ====
section
/-! DEFINITION. The decoder of command words, total on all 2^40 of them, and the encoder (30_encoding.md R60 to R64, R67, R68). -/

namespace Sys2Proof

/-- Why a word is no command, whatever the state: R65 items 1 and 2. -/
inductive DecodeError where
  /-- `opc` is not one of the nine defined opcodes (R65 item 1). -/
  | undefinedOpcode
  /-- A command of form zero whose operand is not 0 (R64). -/
  | operandNotZero
  /-- A PUSH with `opr[31:8]` not 0 (R64). -/
  | byteOperandTooLarge
  /-- An RD with `opr` above 4 (R64). -/
  | reservedRegister
  deriving DecidableEq, Repr

/-- The eight bits of an opcode (R62). -/
def Opcode.code : Opcode → BitVec 8
  | .nop => 0x00#8
  | .clr => 0x01#8
  | .crcs => 0x10#8
  | .typs => 0x11#8
  | .prss => 0x12#8
  | .blds => 0x13#8
  | .push => 0x20#8
  | .endInput => 0x21#8
  | .rd => 0x30#8

/-- The opcode with given bits; all eight bits are matched (R62). -/
def Opcode.ofCode (c : BitVec 8) : Option Opcode :=
  if c = 0x00#8 then some .nop
  else if c = 0x01#8 then some .clr
  else if c = 0x10#8 then some .crcs
  else if c = 0x11#8 then some .typs
  else if c = 0x12#8 then some .prss
  else if c = 0x13#8 then some .blds
  else if c = 0x20#8 then some .push
  else if c = 0x21#8 then some .endInput
  else if c = 0x30#8 then some .rd
  else none

/-- `opc = cw[39:32]` (R60). -/
def opcField (cw : CmdWord) : BitVec 8 := cw.extractLsb' 32 8

/-- `opr = cw[31:0]` (R60). -/
def oprField (cw : CmdWord) : Word := cw.extractLsb' 0 32

/-- Operand form zero (R63). -/
def decodeZero (i : Instr) (opr : Word) : Except DecodeError Instr :=
  if opr = 0#32 then .ok i else .error .operandNotZero

/-- Operand form byte (R63): `opr[31:8] = 0`, `b = opr[7:0]`. -/
def decodeByte (opr : Word) : Except DecodeError Instr :=
  if opr.extractLsb' 8 24 = 0#24 then .ok (.push (opr.extractLsb' 0 8)) else .error .byteOperandTooLarge

/-- Operand form len32 (R63): every value is a length. -/
def decodeLen32 (opr : Word) : Except DecodeError Instr := .ok (.blds opr)

/-- Operand form regnum (R63): 0 to 4. -/
def decodeRegnum (opr : Word) : Except DecodeError Instr :=
  if opr.toNat ≤ 4 then .ok (.rd opr) else .error .reservedRegister

/-- The operand decoded by the form of its opcode (R62, R63). -/
def decodeOperand (op : Opcode) (opr : Word) : Except DecodeError Instr :=
  match op with
  | .nop => decodeZero .nop opr
  | .clr => decodeZero .clr opr
  | .crcs => decodeZero .crcs opr
  | .typs => decodeZero .typs opr
  | .prss => decodeZero .prss opr
  | .blds => decodeLen32 opr
  | .push => decodeByte opr
  | .endInput => decodeZero .endInput opr
  | .rd => decodeRegnum opr

/-- The decoder: the opcode is tested before the operand (R67). -/
def decode (cw : CmdWord) : Except DecodeError Instr :=
  match Opcode.ofCode (opcField cw) with
  | none => .error .undefinedOpcode
  | some op => decodeOperand op (oprField cw)

/-- `cw = (opc << 32) | opr` (R60, R68). -/
def encode (i : Instr) : CmdWord := i.opcode.code ++ i.operand

/-- A word numbered as the opcode table numbers it: one 40-bit word, bits at `nbits` and above 0. -/
def tableWord (nbits w : Nat) : CmdWord := BitVec.ofNat 40 (w % 2 ^ nbits)

/-- The command the decoder reads from a table word; a row longer than the one 40-bit format is no command (R61). -/
def decodeTableWord (nbits w : Nat) : Option Instr :=
  if nbits ≤ 40 then (decode (tableWord nbits w)).toOption else none

end Sys2Proof
end

