-- ==== Sys2Proof/Machine/State.lean ====
section
/-! DEFINITION. The state: the block's thirteen registers, and apart from them its surroundings, the command port and the two output traces.
10_state.md R10 to R24, R31, R33; 30_encoding.md R66; 20_memory.md R42. -/

namespace Sys2Proof.Machine

/-- `MODE`, the operation in progress (R17).
The codes 5, 6 and 7 are taken by no rule, so they have no constructor (log entry 5). -/
inductive Mode where
  | idle | crc | type | parse | build
  deriving DecidableEq, Repr

/-- `PH`, the field of the chunk frame in progress, in wire order (R18). -/
inductive Phase where
  | len | typ | dat | crc
  deriving DecidableEq, Repr

/-- The status codes of R200, used in the response and in `ERR`.
Codes 9 to 15 are never produced, so they have no constructor (log entry 5). -/
inductive Status where
  /-- 0, no error. -/
  | ok
  /-- 1, raised by the block (R201). -/
  | invalidTypeBytes
  /-- 2, raised by the host only (R181). -/
  | invalidSignature
  /-- 3, raised by the block (R202). -/
  | insufficientData
  /-- 4, raised by the block (R203). -/
  | crcMismatch
  /-- 5, raised by the host only (R185). -/
  | chunkNotFound
  /-- 6, raised by the host only (R190). -/
  | encodingError
  /-- 7, raised by the host only (R182). -/
  | unexpectedTrailingBytes
  /-- 8, raised by the block (R204). -/
  | illegalCommand
  deriving DecidableEq, Repr

/-- The thirteen registers of R10, "the whole state of the block". -/
structure Regs where
  /-- Running CRC remainder, before the final exclusive-or (R11). -/
  crc : Word
  /-- Declared data length (R12). -/
  len : Word
  /-- The four type bytes, first wire byte in bits 31:24 (R13). -/
  type : Word
  /-- The CRC received on the wire, hidden (R14). -/
  rcrc : Word
  /-- Bytes consumed in the current phase (R15). -/
  cnt : Word
  /-- The operation in progress (R17). -/
  mode : Mode
  /-- The field of the frame in progress (R18). -/
  ph : Phase
  /-- Status code of the last termination or illegal command (R19). -/
  err : Status
  /-- `LEN`, `TYPE`, `CRC` describe one complete chunk (R20). -/
  valid : Bool
  /-- `TYPE` holds a well-formed type (R21). -/
  tvalid : Bool
  /-- `CRC` holds the remainder of a completed computation (R22). -/
  cvalid : Bool
  /-- A type byte of the operation in progress was refused, hidden (R23). -/
  tbad : Bool
  /-- An illegal command was issued and no CLR has followed (R24). -/
  fault : Bool
  deriving DecidableEq, Repr

/-- The response of one step (R66). -/
structure Response where
  st : Status
  done : Bool
  rdata : Word
  deriving DecidableEq, Repr

/-- What surrounds the block: its input and its two outputs, which R31 (a) to (c) keep out of the block's state.
They are here only because the host's form of `step` takes and gives a `State` and nothing else (log entries 1 and 2);
the block's own step `blockStep` and run `blockRun` have no argument of this type. -/
structure Surroundings where
  /-- The command words the host has still to issue, the next one first (log entry 1). -/
  commands : List CmdWord
  /-- The responses given so far, oldest first (log entry 2). -/
  responses : List Response
  /-- OUT, the bytes emitted so far, oldest first (R42, log entry 2). -/
  out : List Byte
  deriving DecidableEq, Repr

/-- The block, whose whole state is `regs` (R10, R31), and its surroundings. -/
structure State extends Surroundings where
  /-- The state vector of R10: all the state the block has. -/
  regs : Regs
  deriving DecidableEq, Repr

/-- The reasons a step can stop with a fault: none.
"No command word makes the block hang, and none has unspecified effect" (R67), and an illegal command has the effect of R207, a next state. -/
inductive Fault
  deriving DecidableEq, Repr

/-- The reasons a step can be refused. -/
inductive Refusal where
  /-- A command that has no meaning in `exec` yet; raised by no arm of this model, safe. -/
  | notModelled (mnemonic : String)
  deriving DecidableEq, Repr

/-- The reset column of R10, also stated by R33 and R230. -/
def Regs.reset : Regs where
  crc := 0xFFFFFFFF#32
  len := 0#32
  type := 0#32
  rcrc := 0#32
  cnt := 0#32
  mode := .idle
  ph := .len
  err := .ok
  valid := false
  tvalid := false
  cvalid := false
  tbad := false
  fault := false

/-- The machine right after hardware reset (R33, R230): OUT empty, no command issued yet, no response given. -/
def State.reset : State where
  regs := Regs.reset
  commands := []
  responses := []
  out := []

end Sys2Proof.Machine
end

