-- ==== Sys2Proof/Machine/Ops.lean ====
section
/-! DEFINITION. What every command rule is written with: the primitives `respond`, `emit`, `terminate` and `illegal`
of 00_scope.md section 5.2, the fault gate of 45_control.md R160 step 1, and how a step's effect reaches the state. -/

namespace Sys2Proof.Machine

/-- What one step yields by R160: the registers after it, its response, and the bytes it appends to OUT. -/
structure Effect where
  regs : Regs
  resp : Response
  emitted : List Byte
  deriving DecidableEq, Repr

/-- `respond(st = 0, done = 0, rdata = 0)`: accepted, the operation (if any) continues (R66). -/
def proceed (r : Regs) : Effect := ⟨r, ⟨.ok, false, 0#32⟩, []⟩

/-- `respond(st = 0, done = 1, rdata = 0)`: accepted and the operation completed (R66). -/
def complete (r : Regs) : Effect := ⟨r, ⟨.ok, true, 0#32⟩, []⟩

/-- `respond(st = 0, done = 0, rdata = v)`: the answer of an accepted RD, which changes no register (R166). -/
def answer (v : Word) (r : Regs) : Effect := ⟨r, ⟨.ok, false, v⟩, []⟩

/-- `emit(s)`: append `s` to OUT (R42); a step emits at most once. -/
def emit (s : List Byte) (e : Effect) : Effect := { e with emitted := s }

/-- `illegal()` (R207): `FAULT` and `ERR` are written, everything else is frozen. -/
def illegal (r : Regs) : Effect :=
  ⟨{ r with fault := true, err := .illegalCommand }, ⟨.illegalCommand, false, 0#32⟩, []⟩

/-- `terminate(code)` (R205): back to IDLE with the code in `ERR` and nothing readable. -/
def terminate (code : Status) (r : Regs) : Effect :=
  ⟨{ r with mode := .idle, ph := .len, cnt := 0#32, err := code, valid := false, tvalid := false, cvalid := false },
    ⟨code, true, 0#32⟩, []⟩

/-- R160 step 1: while `FAULT = 1` the command is refused. -/
def unlessFaulted (f : Regs → Effect) (r : Regs) : Effect :=
  if r.fault then illegal r else f r

/-- R65 item 4: a start command is legal in IDLE only. -/
def inIdle (f : Regs → Effect) (r : Regs) : Effect :=
  if r.mode = .idle then f r else illegal r

/-- The effect of a step reaches the registers, the response trace and OUT together (R48). -/
def State.commit (s : State) (e : Effect) : State :=
  { s with regs := e.regs, responses := s.responses ++ [e.resp], out := s.out ++ e.emitted }

/-- One accepted or refused command: its effect is a function of the registers alone (R2, R160). -/
def perform (f : Regs → Effect) (s : State) : Host.Outcome State Fault Refusal :=
  .next (s.commit (f s.regs))

/-- The host's next command word, and the state after the port has taken it (R51, R60). -/
def fetch (s : State) : Option (CmdWord × State) :=
  match s.commands with
  | [] => none
  | w :: rest => some (w, { s with commands := rest })

end Sys2Proof.Machine
end

