-- ==== Sys2Proof/Machine/CrcUnit.lean ====
section
/-! DEFINITION. The CRC-32 generator (41_crc32.md): the function, and CRCS, PUSH and END in mode CRC. -/

namespace Sys2Proof.Machine

/-- The reflected polynomial constant (R4, R80). -/
def crcPolynomial : Word := 0xEDB88320#32

/-- The initial value of the remainder (R4, R80). -/
def crcInitial : Word := 0xFFFFFFFF#32

/-- The final exclusive-or (R4, R80). -/
def crcFinish (c : Word) : Word := c ^^^ 0xFFFFFFFF#32

/-- One iteration of R81: bit 0 is tested before the logical shift. -/
def crcShift (c : Word) : Word :=
  if c.getLsbD 0 then (c >>> 1) ^^^ crcPolynomial else c >>> 1

/-- `n` iterations of R81. -/
def crcShifts : Nat → Word → Word
  | 0, c => c
  | n + 1, c => crcShifts n (crcShift c)

/-- `crc_update(c, b)` (R81): the byte enters at the low 8 bits, then eight iterations. -/
def crcUpdate (c : Word) (b : Byte) : Word := crcShifts 8 (c ^^^ b.setWidth 32)

/-- The remainder after a byte sequence, first byte first (R82, R84). -/
def crcOver (c : Word) (s : List Byte) : Word := s.foldl crcUpdate c

/-- `crc32(s)` (R82). -/
def crc32 (s : List Byte) : Word := crcFinish (crcOver crcInitial s)

/-- Entry `n` of the table of R83. -/
def crcTable (n : Byte) : Word := crcUpdate 0#32 n

/-- R85: `TYPE`, `TVALID`, `LEN`, `RCRC`, `TBAD`, `CNT` and `PH` are not changed. -/
def startCrc (r : Regs) : Effect :=
  proceed { r with mode := .crc, crc := crcInitial, cvalid := false, valid := false, err := .ok }

/-- PUSH in mode CRC (R86). -/
def pushCrc (b : Byte) (r : Regs) : Effect := proceed { r with crc := crcUpdate r.crc b }

/-- END in mode CRC (R87): `CRC` keeps the remainder, the view inverts it. -/
def endCrc (r : Regs) : Effect := complete { r with mode := .idle, cvalid := true }

/-- CRCS by its registers (R85, R160). -/
def crcsEffect : Regs → Effect := unlessFaulted (inIdle startCrc)

/-- CRCS: start a standalone CRC (R85). -/
def execCrcs (s : State) : Host.Outcome State Fault Refusal := perform crcsEffect s

end Sys2Proof.Machine
end

