-- ==== Sys2Proof/Machine/Operands.lean ====
section
/-! DEFINITION. How bytes become words and words bytes (00_scope.md section 5.1, 20_memory.md R44, R46),
and the register-number space of RD (20_memory.md R49). -/

namespace Sys2Proof.Machine

/-- `(w << 8) | zext_32(b)`: the next byte of a big-endian word enters at the low end (R13, R14, R90). -/
def shiftIn (w : Word) (b : Byte) : Word := (w <<< 8) ||| b.setWidth 32

/-- `be32(v)`: four bytes, most significant first. -/
def be32 (v : Word) : List Byte :=
  [v.extractLsb' 24 8, v.extractLsb' 16 8, v.extractLsb' 8 8, v.extractLsb' 0 8]

/-- `unbe32(s)` of a 4-byte sequence (log entry 8 on other lengths). -/
def unbe32 (s : List Byte) : Word := s.foldl shiftIn 0#32

/-- Byte `k` of a packed chunk type, byte 0 in bits 31:24 (R13). -/
def typeByte (t : Word) (k : Nat) : Byte := t.extractLsb' (24 - 8 * k) 8

/-- The five views (R49). -/
inductive View where
  | status | len | type | crcOut | props
  deriving DecidableEq, Repr

/-- The view a register number names; 5 and above are reserved (R49). -/
def viewOf (r : Word) : Option View :=
  if r = 0#32 then some .status
  else if r = 1#32 then some .len
  else if r = 2#32 then some .type
  else if r = 3#32 then some .crcOut
  else if r = 4#32 then some .props
  else none

end Sys2Proof.Machine
end

