-- ==== Sys2Proof/Machine/BuildUnit.lean ====
section
/-! DEFINITION. Chunk serialization (43_chunk_build.md): the wire layout, BLDS, and PUSH in mode BUILD. -/

namespace Sys2Proof.Machine

/-- `chunk_serialize(t, d)` (R120), for data of at most 2^32 - 1 bytes (log entry 8). -/
def chunkSerialize (t d : List Byte) : List Byte :=
  be32 (BitVec.ofNat 32 d.length) ++ t ++ d ++ be32 (crc32 (t ++ d))

/-- R122: the length and type fields go out at once, and the whole chunk if the length is 0.
The CRC starts over the type bytes, not the length bytes (R88). -/
def startBuild (n : Word) (r : Regs) : Effect :=
  let t := be32 r.type
  let c := crcOver crcInitial t
  if n = 0#32 then
    emit (be32 0#32 ++ t ++ be32 (crcFinish c))
      (complete { r with len := n, cnt := 0#32, crc := c, err := .ok, valid := true, cvalid := true })
  else
    emit (be32 n ++ t)
      (proceed { r with len := n, cnt := 0#32, crc := c, err := .ok, valid := false, cvalid := false,
                        mode := .build, ph := .dat })

/-- PUSH in mode BUILD (R124): the byte passes to OUT, and the CRC field follows the last one. -/
def pushBuild (b : Byte) (r : Regs) : Effect :=
  let c := crcUpdate r.crc b
  if r.cnt + 1#32 = r.len then
    emit ([b] ++ be32 (crcFinish c))
      (complete { r with crc := c, mode := .idle, ph := .len, cnt := 0#32, valid := true, cvalid := true })
  else
    emit [b] (proceed { r with crc := c, cnt := r.cnt + 1#32 })

/-- R123, R65 item 5: a chunk is built only from a loaded type. -/
def withType (f : Regs → Effect) (r : Regs) : Effect :=
  if r.tvalid then f r else illegal r

/-- BLDS by its registers (R122, R123, R160). -/
def bldsEffect (n : Word) : Regs → Effect := unlessFaulted (inIdle (withType (startBuild n)))

/-- BLDS: start a chunk serialization with declared data length `n` (R122). -/
def execBlds (n : Word) (s : State) : Host.Outcome State Fault Refusal := perform (bldsEffect n) s

end Sys2Proof.Machine
end

