-- ==== Sys2Proof/Machine/Flags.lean ====
section
/-! DEFINITION. The letter test and the property predicates of a chunk type (42_chunk_type.md R100, R110 to R116),
the numeric codes of the control fields (10_state.md R17 to R19) and the views computed from them (R26 to R30). -/

namespace Sys2Proof.Machine

/-- `is_letter(b)` (R100): `A` to `Z` or `a` to `z`, bounds included. -/
def isLetter (b : Byte) : Bool :=
  (0x41 ≤ b.toNat && b.toNat ≤ 0x5A) || (0x61 ≤ b.toNat && b.toNat ≤ 0x7A)

/-- A type is well-formed when its four bytes are letters (R101). -/
def isWellFormedType (t : List Byte) : Bool := t.length == 4 && t.all isLetter

/-- Bit 5 (0x20) of one byte of the type: 0 upper case, 1 lower case (42_chunk_type.md section 3). -/
def caseBit (t : Word) (k : Nat) : Bool := (typeByte t k).getLsbD 5

/-- Byte 0 upper case (R110). -/
def isCritical (t : Word) : Bool := !caseBit t 0
/-- Byte 1 upper case (R111). -/
def isPublic (t : Word) : Bool := !caseBit t 1
/-- Byte 1 lower case (R112). -/
def isPrivate (t : Word) : Bool := caseBit t 1
/-- Byte 2 upper case: true in the conformant case (R113, 90_conflicts.md C7). -/
def isReserved (t : Word) : Bool := !caseBit t 2
/-- Byte 3 lower case (R114). -/
def isSafeToCopy (t : Word) : Bool := caseBit t 3
/-- Byte 2 upper case (R115). -/
def isValid (t : Word) : Bool := !caseBit t 2

/-- One flag as bit `k` of a word whose other bits are 0. -/
def flagAt (b : Bool) (k : Nat) : Word := (BitVec.ofBool b).setWidth 32 <<< k

/-- The view PROPS (R30): six predicates in bits 0 to 5. -/
def propsWord (t : Word) : Word :=
  flagAt (isCritical t) 0 ||| flagAt (isPublic t) 1 ||| flagAt (isPrivate t) 2 |||
    flagAt (isReserved t) 3 ||| flagAt (isSafeToCopy t) 4 ||| flagAt (isValid t) 5

/-- The code of `MODE` (R17). -/
def Mode.code : Mode → BitVec 3
  | .idle => 0#3
  | .crc => 1#3
  | .type => 2#3
  | .parse => 3#3
  | .build => 4#3

/-- The code of `PH` (R18). -/
def Phase.code : Phase → BitVec 2
  | .len => 0#2
  | .typ => 1#2
  | .dat => 2#2
  | .crc => 3#2

/-- The status codes (R200). -/
def Status.code : Status → BitVec 4
  | .ok => 0#4
  | .invalidTypeBytes => 1#4
  | .invalidSignature => 2#4
  | .insufficientData => 3#4
  | .crcMismatch => 4#4
  | .chunkNotFound => 5#4
  | .encodingError => 6#4
  | .unexpectedTrailingBytes => 7#4
  | .illegalCommand => 8#4

/-- The view STATUS (R26). -/
def statusWord (r : Regs) : Word :=
  r.mode.code.setWidth 32 ||| (r.ph.code.setWidth 32 <<< 3) ||| flagAt r.valid 5 ||| flagAt r.tvalid 6 |||
    flagAt r.cvalid 7 ||| flagAt r.fault 8 ||| (r.err.code.setWidth 32 <<< 12)

/-- What an accepted read of a view returns; `none` where the view's validity flag is 0 (R26 to R30, R166). -/
def readView (v : View) (r : Regs) : Option Word :=
  match v with
  | .status => some (statusWord r)
  | .len => if r.valid then some r.len else none
  | .type => if r.tvalid then some r.type else none
  | .crcOut => if r.cvalid then some (r.crc ^^^ 0xFFFFFFFF#32) else none
  | .props => if r.tvalid then some (propsWord r.type) else none

end Sys2Proof.Machine
end

