-- ==== Sys2Proof/Machine/ParseUnit.lean ====
section
/-! DEFINITION. Chunk parse (44_chunk_parse.md): the function, PRSS, and PUSH and END in mode PARSE. -/

namespace Sys2Proof.Machine

/-- The chunk a parse yields: type, data, CRC (R135). -/
structure Chunk where
  type : List Byte
  data : List Byte
  crc : Word
  deriving DecidableEq, Repr

/-- `chunk_parse(s)` (R135), with its tests in the order of R210; `12 + n` is a natural number. -/
def chunkParse (s : List Byte) : Except Status Chunk :=
  if s.length < 4 then .error .insufficientData
  else
    let n := (unbe32 (s.take 4)).toNat
    if s.length < 12 + n then .error .insufficientData
    else
      let t := (s.drop 4).take 4
      let d := (s.drop 8).take n
      let r := unbe32 ((s.drop (8 + n)).take 4)
      if t.all isLetter = false then .error .invalidTypeBytes
      else if crc32 (t ++ d) ≠ r then .error .crcMismatch
      else .ok ⟨t, d, r⟩

/-- R137: every result of an earlier operation becomes unreadable. -/
def startParse (r : Regs) : Effect :=
  proceed { r with mode := .parse, ph := .len, cnt := 0#32, len := 0#32, type := 0#32, rcrc := 0#32,
                   crc := crcInitial, tbad := false, valid := false, tvalid := false, cvalid := false, err := .ok }

/-- PUSH in phase LEN (R140). -/
def pushLength (b : Byte) (r : Regs) : Effect :=
  let len := shiftIn r.len b
  if r.cnt = 3#32 then proceed { r with len := len, ph := .typ, cnt := 0#32 }
  else proceed { r with len := len, cnt := r.cnt + 1#32 }

/-- PUSH in phase TYP (R141): a byte that is no letter is remembered, not reported; length 0 skips the data phase. -/
def pushTypeField (b : Byte) (r : Regs) : Effect :=
  let r' := { r with type := shiftIn r.type b, crc := crcUpdate r.crc b, tbad := r.tbad || !isLetter b }
  if r.cnt = 3#32 then proceed { r' with cnt := 0#32, ph := if r.len = 0#32 then .crc else .dat }
  else proceed { r' with cnt := r.cnt + 1#32 }

/-- PUSH in phase DAT (R142): the byte is neither stored nor emitted. -/
def pushData (b : Byte) (r : Regs) : Effect :=
  let r' := { r with crc := crcUpdate r.crc b }
  if r.cnt + 1#32 = r.len then proceed { r' with ph := .crc, cnt := 0#32 }
  else proceed { r' with cnt := r.cnt + 1#32 }

/-- The fourth CRC byte (R145), `r.rcrc` being the complete received CRC: type error before CRC error (R210). -/
def finishParse (r : Regs) : Effect :=
  if r.tbad then terminate .invalidTypeBytes r
  else if r.rcrc ≠ crcFinish r.crc then terminate .crcMismatch r
  else complete { r with mode := .idle, ph := .len, cnt := 0#32, valid := true, tvalid := true, cvalid := true }

/-- PUSH in phase CRC (R143, R145).
DEDUCED: a count above 3, which no run reaches and no rule covers, takes R143 (log entry 6). -/
def pushReceivedCrc (b : Byte) (r : Regs) : Effect :=
  let r' := { r with rcrc := shiftIn r.rcrc b }
  if r.cnt = 3#32 then finishParse r'
  else proceed { r' with cnt := r.cnt + 1#32 }

/-- PUSH in mode PARSE, by phase (R163). -/
def pushParse (b : Byte) (r : Regs) : Effect :=
  match r.ph with
  | .len => pushLength b r
  | .typ => pushTypeField b r
  | .dat => pushData b r
  | .crc => pushReceivedCrc b r

/-- END in mode PARSE (R146): the host's bytes ran out, in whatever phase. -/
def endParse (r : Regs) : Effect := terminate .insufficientData r

/-- PRSS by its registers (R137, R160). -/
def prssEffect : Regs → Effect := unlessFaulted (inIdle startParse)

/-- PRSS: start a chunk parse (R137). -/
def execPrss (s : State) : Host.Outcome State Fault Refusal := perform prssEffect s

end Sys2Proof.Machine
end

