-- ==== Sys2Proof/Machine/TypeUnit.lean ====
section
/-! DEFINITION. The chunk-type unit (42_chunk_type.md): TYPS, and PUSH and END in mode TYPE. -/

namespace Sys2Proof.Machine

/-- R102: `CRC`, `CVALID`, `LEN`, `RCRC` and `PH` are not changed. -/
def startType (r : Regs) : Effect :=
  proceed { r with mode := .type, cnt := 0#32, type := 0#32, tbad := false, tvalid := false, valid := false, err := .ok }

/-- PUSH in mode TYPE (R104): a fifth or later byte only marks `TBAD`. -/
def pushType (b : Byte) (r : Regs) : Effect :=
  if r.cnt = 4#32 then proceed { r with tbad := true }
  else proceed { r with type := shiftIn r.type b, tbad := r.tbad || !isLetter b, cnt := r.cnt + 1#32 }

/-- END in mode TYPE (R108): four pushes, all letters, or status 1; `CVALID` is kept either way. -/
def endType (r : Regs) : Effect :=
  if r.cnt = 4#32 ∧ r.tbad = false then complete { r with tvalid := true, mode := .idle, cnt := 0#32 }
  else ⟨{ r with tvalid := false, err := .invalidTypeBytes, mode := .idle, cnt := 0#32 },
    ⟨.invalidTypeBytes, true, 0#32⟩, []⟩

/-- TYPS by its registers (R102, R160). -/
def typsEffect : Regs → Effect := unlessFaulted (inIdle startType)

/-- TYPS: start a type load (R102). -/
def execTyps (s : State) : Host.Outcome State Fault Refusal := perform typsEffect s

end Sys2Proof.Machine
end

