-- ==== Sys2Proof/Machine/Control.lean ====
section
/-! DEFINITION. The housekeeping commands NOP, CLR and RD, and the dispatch of PUSH and END by mode (45_control.md). -/

namespace Sys2Proof.Machine

/-- NOP by its registers (R161). -/
def nopEffect : Regs → Effect := unlessFaulted proceed

/-- NOP: changes no register (R161). -/
def execNop (s : State) : Host.Outcome State Fault Refusal := perform nopEffect s

/-- CLR by its registers (R162): legal in every state, no fault gate. -/
def clrEffect (_ : Regs) : Effect := proceed Regs.reset

/-- CLR: every register takes its reset value, OUT is kept (R162, R231). -/
def execClr (s : State) : Host.Outcome State Fault Refusal := perform clrEffect s

/-- PUSH by `MODE` (R163). -/
def pushByMode (b : Byte) (r : Regs) : Effect :=
  match r.mode with
  | .idle => illegal r
  | .crc => pushCrc b r
  | .type => pushType b r
  | .parse => pushParse b r
  | .build => pushBuild b r

/-- PUSH by its registers (R163, R160). -/
def pushEffect (b : Byte) : Regs → Effect := unlessFaulted (pushByMode b)

/-- PUSH: one input byte to the operation in progress (R163). -/
def execPush (b : Byte) (s : State) : Host.Outcome State Fault Refusal := perform (pushEffect b) s

/-- END by `MODE` (R164): illegal in IDLE, and in BUILD (R125). -/
def endByMode (r : Regs) : Effect :=
  match r.mode with
  | .idle => illegal r
  | .crc => endCrc r
  | .type => endType r
  | .parse => endParse r
  | .build => illegal r

/-- END by its registers (R164, R160). -/
def endEffect : Regs → Effect := unlessFaulted endByMode

/-- END: no more input follows for the operation in progress (R164). -/
def execEnd (s : State) : Host.Outcome State Fault Refusal := perform endEffect s

/-- An RD of a view, outside the fault gate (R166): refused where the view's flag is 0. -/
def rdView (v : View) (r : Regs) : Effect :=
  match readView v r with
  | some x => answer x r
  | none => illegal r

/-- RD by its registers (R166): STATUS passes the fault gate (R160 step 1), a reserved number is illegal. -/
def rdEffect (n : Word) (r : Regs) : Effect :=
  match viewOf n with
  | some .status => rdView .status r
  | some v => unlessFaulted (rdView v) r
  | none => illegal r

/-- RD: read the view numbered `n` (R166). -/
def execRd (n : Word) (s : State) : Host.Outcome State Fault Refusal := perform (rdEffect n) s

end Sys2Proof.Machine
end

