-- ==== Sys2Proof/Machine/Dispatch.lean ====
section
/-! DEFINITION. The meaning of every command, one arm per constructor of Instr. -/

namespace Sys2Proof.Machine

def exec (i : Instr) (s : State) : Host.Outcome State Fault Refusal :=
  match i with
  | .nop => Sys2Proof.Machine.execNop s
  | .clr => Sys2Proof.Machine.execClr s
  | .crcs => Sys2Proof.Machine.execCrcs s
  | .typs => Sys2Proof.Machine.execTyps s
  | .prss => Sys2Proof.Machine.execPrss s
  | .blds n => Sys2Proof.Machine.execBlds n s
  | .push b => Sys2Proof.Machine.execPush b s
  | .endInput => Sys2Proof.Machine.execEnd s
  | .rd r => Sys2Proof.Machine.execRd r s

end Sys2Proof.Machine
end

