-- ==== Sys2Proof/Machine/Step.lean ====
section
/-! DEFINITION. One step: the acceptance of the host's next command word (00_scope.md R2, 45_control.md R160). -/

namespace Sys2Proof.Machine

/-- One step: a word that is no command is illegal (R65 items 1 and 2, R207).
With no word at the port nothing happens: the block "waits for the first command word" (R230) and "all state survives indefinitely" between commands (R221). -/
def step (s : State) : Host.Outcome State Fault Refusal :=
  match fetch s with
  | none => .next s
  | some (w, s') =>
    match decode w with
    | .ok i => exec i s'
    | .error _ => perform illegal s'

/-- The state in which the given table word is the one the port hands over next (log entries 3 and 4). -/
def State.withFetchWord (s : State) (nbits w : Nat) : State :=
  { s with commands := tableWord nbits w :: s.commands }

end Sys2Proof.Machine
end

