-- ==== Sys2Proof/Machine/Block.lean ====
section
/-! DEFINITION. The block alone, in the form R31 asks for: its state is the thirteen registers, the command word is an input of its step,
and the response and the emission are outputs (00_scope.md R2, 10_state.md R10 and R31, 45_control.md R160). -/

namespace Sys2Proof.Machine

/-- The effect of a command by the registers alone (R160). -/
def effectOf (i : Instr) (r : Regs) : Effect :=
  match i with
  | .nop => nopEffect r
  | .clr => clrEffect r
  | .crcs => crcsEffect r
  | .typs => typsEffect r
  | .prss => prssEffect r
  | .blds n => bldsEffect n r
  | .push b => pushEffect b r
  | .endInput => endEffect r
  | .rd n => rdEffect n r

/-- The block's step: from the command word and the registers to the registers after it, the response and the bytes emitted.
A word that is no command is illegal (R65 items 1 and 2, R207). -/
def blockStep (w : CmdWord) (r : Regs) : Effect :=
  match decode w with
  | .ok i => effectOf i r
  | .error _ => illegal r

/-- What a command sequence makes of the block: its registers, and the two output traces, oldest first. -/
structure BlockTrace where
  regs : Regs
  responses : List Response
  out : List Byte
  deriving DecidableEq, Repr

/-- A run of the block (R173): a finite command sequence is the input, the registers are the only state,
the responses and OUT are outputs that no step sees. -/
def blockRun : List CmdWord → Regs → BlockTrace
  | [], r => ⟨r, [], []⟩
  | w :: ws, r =>
    let e := blockStep w r
    let rest := blockRun ws e.regs
    ⟨rest.regs, e.resp :: rest.responses, e.emitted ++ rest.out⟩

end Sys2Proof.Machine
end

