-- ==== Sys2Proof/Config.lean ====
section
/-! DEFINITION. The fixed parameters of 00_scope.md section 4 that the claims mention.
"No parameter is left open: the model takes no configuration argument", so there is no free value here. -/

namespace Sys2Proof.Config

/-- The largest chunk data length admitted, the whole `u32` range (00_scope.md section 4, 43_chunk_build.md R129). -/
def maxDataLength : Nat := 2 ^ 32 - 1

/-- The most bytes one step appends to OUT (00_scope.md section 4, 20_memory.md R42). -/
def maxEmission : Nat := 12

end Sys2Proof.Config
end

