-- ==== Sys2Proof/Machine/Procedures.lean ====
section
/-! DEFINITION. The pseudo-instructions of 30_encoding.md R69 and the host procedures of 46_host_container.md R193, R194 that drive one operation.
Nothing here is part of the block; the procedures read its responses and issue its command words. -/

namespace Sys2Proof.Machine

/-- `PUSHS s` (R69). -/
def pushes (s : List Byte) : List Instr := s.map Instr.push

/-- `CRC32 s` (R69): the CRC of a message, read through CRCOUT. -/
def crcProgram (s : List Byte) : List Instr := .crcs :: pushes s ++ [.endInput, .rd 3#32]

/-- `LDTYPE s` (R69): load a chunk type. -/
def ldType (s : List Byte) : List Instr := .typs :: pushes s ++ [.endInput]

/-- The build half of `NEWCHUNK` (R69): declare the length, push the data.
BLDS is given the length modulo 2^32, which is the length for the data R193 admits; for longer data, which "cannot be declared to BLDS at all"
(91_not_in_source.md N6), that is the model's choice (log entry 8). -/
def buildProgram (d : List Byte) : List Instr := .blds (BitVec.ofNat 32 d.length) :: pushes d

/-- The command words of a sequence, as the host presents them (R69, R60). -/
def wordsOf (is : List Instr) : List CmdWord := is.map encode

/-- The host issues one command: it is the next word at the port, and the block takes one step (R51). -/
def issue (i : Instr) (s : State) : Host.Outcome State Fault Refusal :=
  step { s with commands := encode i :: s.commands }

/-- The host issues a fixed sequence without looking at the responses. -/
def issueAll : List Instr → State → Host.Outcome State Fault Refusal
  | [], s => .next s
  | i :: is, s =>
    match issue i s with
    | .next t => issueAll is t
    | .fault f => .fault f
    | .refused f => .refused f

/-- The response the host saw last (R51 (c)). -/
def State.lastResponse (s : State) : Option Response := s.responses.getLast?

/-- The `st` of the last response. -/
def State.lastStatus (s : State) : Option Status := s.lastResponse.map Response.st

/-- Whether the last response had `done = 1`. -/
def State.lastDone (s : State) : Bool := (s.lastResponse.map Response.done).getD false

/-- The push loop of `host_parse_chunk` (R194), with the bytes pushed so far counted in `k`:
it stops at `done = 1`, and issues END where the bytes run out.
The status of a parse is the `st` of its last response, END's own included. R194 returns 3 after END, which is END's `st` in mode PARSE (R146);
where the block refuses the commands, outside the premise of R147, END's `st` is 8 and that is reported, the model's choice (log entry 14). -/
def parseLoop : List Byte → Nat → State → Host.Outcome (State × Nat) Fault Refusal
  | [], k, s =>
    match issue .endInput s with
    | .next t => .next (t, k)
    | .fault f => .fault f
    | .refused f => .refused f
  | b :: bs, k, s =>
    match issue (.push b) s with
    | .next t => if t.lastDone then .next (t, k + 1) else parseLoop bs (k + 1) t
    | .fault f => .fault f
    | .refused f => .refused f

/-- `host_parse_chunk(s)` (R194), which is `PARSE s` of R69: the state afterwards, whose last response holds the status, and the bytes consumed. -/
def hostParseChunk (bytes : List Byte) (s : State) : Host.Outcome (State × Nat) Fault Refusal :=
  match issue .prss s with
  | .next t => parseLoop bytes 0 t
  | .fault f => .fault f
  | .refused f => .refused f

/-- How `host_new_chunk` ends (R193): with the serialized chunk, with an error kind, or because the block stopped. -/
inductive HostBuild where
  | built (chunk : List Byte) (s : State)
  | failed (kind : Status) (s : State)
  | stopped
  deriving DecidableEq, Repr

/-- `host_new_chunk(t, d)` (R193), which is `NEWCHUNK t, d` of R69: the type load, and if it ended with `st = 0` the build,
whose chunk is what OUT gained from the mark on.
The last response is the build's `done = 1`, or else the build has failed with its status; that, and every `st` of the type load but 0 and 1,
is seen only outside the premise of R193 and is the model's choice (log entries 8 and 14). -/
def hostNewChunk (t d : List Byte) (s : State) : HostBuild :=
  match issueAll (ldType t) s with
  | .next s1 =>
    match s1.lastStatus with
    | some .ok =>
      let mark := s1.out.length
      match issueAll (buildProgram d) s1 with
      | .next s2 =>
        match s2.lastResponse with
        | some p => if p.done then .built ((s2.out.drop mark).take (12 + d.length)) s2 else .failed p.st s2
        | none => .stopped
      | _ => .stopped
    | some e => .failed e s1
    | none => .stopped
  | _ => .stopped

/-- The host reads a view and takes `rdata` from the response (R66, R166). -/
def hostRead (n : Word) (s : State) : Host.Outcome (State × Word) Fault Refusal :=
  match issue (.rd n) s with
  | .next t => .next (t, (t.lastResponse.map Response.rdata).getD 0#32)
  | .fault f => .fault f
  | .refused f => .refused f

end Sys2Proof.Machine
end

