-- ==== Sys2Proof/Machine/Container.lean ====
section
/-! DEFINITION. The host side (46_host_container.md): the Png container as pure functions (R180 to R192, R195), and its parse loop driven through the block (R194).
Nothing here is part of the block, whose rules never depend on it. -/

namespace Sys2Proof.Machine

/-- The 8-byte signature, a constant of the host (R180). -/
def pngSignature : List Byte := [0x89#8, 0x50#8, 0x4E#8, 0x47#8, 0x0D#8, 0x0A#8, 0x1A#8, 0x0A#8]

/-- `ChunkType.from_bytes` and `from_string` (R189, R109): exactly four bytes, all letters. -/
def typeFromBytes (s : List Byte) : Except Status (List Byte) :=
  if isWellFormedType s then .ok s else .error .invalidTypeBytes

/-- `Chunk.new(t, d)` (R121): the CRC is computed, never supplied. -/
def newChunk (t d : List Byte) : Chunk := ⟨t, d, crc32 (t ++ d)⟩

/-- `Chunk.as_bytes()` (R120). -/
def chunkBytes (c : Chunk) : List Byte :=
  be32 (BitVec.ofNat 32 c.data.length) ++ c.type ++ c.data ++ be32 c.crc

/-- `Chunk.data_as_string()` (R190): the spec names no validator of UTF-8, so it is an argument (log entry 10).
The text is given as its bytes (log entry 15). -/
def dataAsText (validText : List Byte → Bool) (c : Chunk) : Except Status (List Byte) :=
  if validText c.data then .ok c.data else .error .encodingError

/-- A Png: the ordered chunk sequence; the signature "is always exactly the 8 constant bytes", so it is no field (R180, R187). -/
structure Png where
  chunks : List Chunk
  deriving DecidableEq, Repr

/-- `Png.new()` (R183). -/
def emptyPng : Png := ⟨[]⟩

/-- `append_chunk` (R184): at the end, without validation. -/
def appendChunk (p : Png) (c : Chunk) : Png := ⟨p.chunks ++ [c]⟩

/-- `chunk_by_type` (R186, 90_conflicts.md C9): the first match or empty; it never fails. -/
def chunkByType (p : Png) (t : List Byte) : Option Chunk := p.chunks.find? (fun c => c.type == t)

/-- `remove_first_chunk` (R185): the first match in stored order, or `ChunkNotFound` with the Png unchanged (R195). -/
def removeFirstChunk (p : Png) (t : List Byte) : Except Status (Chunk × Png) :=
  match chunkByType p t with
  | some c => .ok (c, ⟨p.chunks.eraseP (fun c => c.type == t)⟩)
  | none => .error .chunkNotFound

/-- `Png.as_bytes()` (R188): the signature, then each chunk in stored order, with no separators. -/
def pngBytes (p : Png) : List Byte := pngSignature ++ (p.chunks.map chunkBytes).flatten

/-- The listing of (type, length, property flags), in stored order (R192).
R192 leaves its form open; that it is a list of tuples and no text, with the flags packed as the word PROPS (R30), is the model's choice (log entry 15). -/
def pngListing (p : Png) : List (List Byte × Nat × Word) :=
  p.chunks.map (fun c => (c.type, c.data.length, propsWord (unbe32 c.type)))

/-- The chunk loop of `Png.from_bytes` (R181, R182): an error carries its kind and the offset at which the chunk began (R191).
A chunk has at least 12 bytes (R129), so a fuel of the buffer's length is never used up. -/
def pngChunks : Nat → Nat → List Byte → Except (Status × Nat) (List Chunk)
  | 0, _, _ => .ok []
  | fuel + 1, pos, s =>
    if s = [] then .ok []
    else if s.length < 12 then .error (.unexpectedTrailingBytes, pos)
    else
      match chunkParse s with
      | .error e => .error (e, pos)
      | .ok c =>
        let k := 12 + c.data.length
        match pngChunks fuel (pos + k) (s.drop k) with
        | .ok cs => .ok (c :: cs)
        | .error e => .error e

/-- `Png.from_bytes` (R181): a buffer shorter than the signature fails as one with a wrong signature does.
That this error carries the offset 0 is the model's choice (log entry 14). -/
def pngFromBytes (buf : List Byte) : Except (Status × Nat) Png :=
  if buf.take 8 ≠ pngSignature then .error (.invalidSignature, 0)
  else
    match pngChunks buf.length 8 (buf.drop 8) with
    | .ok cs => .ok ⟨cs⟩
    | .error e => .error e

/-- How `host_png_from_bytes` ends (R194): with a Png, with an error kind and its offset, or because the block stopped. -/
inductive HostLoad where
  | loaded (p : Png) (s : State)
  | failed (kind : Status) (offset : Nat) (s : State)
  | stopped
  deriving DecidableEq, Repr

/-- One round of the loop of R194 after a parse with `st = 0`: the three reads, and the chunk in the host's own buffer. -/
def hostTakeChunk (s : List Byte) (st : State) : Option (Chunk × State) :=
  match hostRead 1#32 st with
  | .next (s1, n) =>
    match hostRead 2#32 s1 with
    | .next (s2, t) =>
      match hostRead 3#32 s2 with
      | .next (s3, c) => some (⟨be32 t, (s.drop 8).take n.toNat, c⟩, s3)
      | _ => none
    | _ => none
  | _ => none

/-- The loop of `host_png_from_bytes` (R194), each chunk parsed by the block.
A parse whose commands the block refuses fails with `illegalCommand`, the `st` of its last response (the model's choice, log entry 14). -/
def hostPngLoop : Nat → Nat → List Byte → List Chunk → State → HostLoad
  | 0, _, _, cs, st => .loaded ⟨cs⟩ st
  | fuel + 1, pos, s, cs, st =>
    if s = [] then .loaded ⟨cs⟩ st
    else if s.length < 12 then .failed .unexpectedTrailingBytes pos st
    else
      match hostParseChunk s st with
      | .next (st1, k) =>
        match st1.lastStatus with
        | some .ok =>
          match hostTakeChunk s st1 with
          | some (c, st2) => hostPngLoop fuel (pos + k) (s.drop k) (cs ++ [c]) st2
          | none => .stopped
        | some e => .failed e pos st1
        | none => .stopped
      | _ => .stopped

/-- `host_png_from_bytes(buf)` (R194): the signature never reaches the block.
R194 gives its error no offset; 0 is the model's choice (log entry 14). -/
def hostPngFromBytes (buf : List Byte) (st : State) : HostLoad :=
  if buf.take 8 ≠ pngSignature then .failed .invalidSignature 0 st
  else hostPngLoop buf.length 8 (buf.drop 8) [] st

end Sys2Proof.Machine
end

