-- ==== Sys2Proof/Safety.lean ====
section
/-! DEFINITION. The terms in which claims are stated: the list of illegal commands, the invariants of the registers,
the rows of the transition table, and the kinds of run (30_encoding.md R65, 10_state.md R15 and R25, 45_control.md R170 and R173). -/

namespace Sys2Proof.Machine

/-- `n` steps of the machine. -/
def run (n : Nat) (s : State) : Host.Outcome State Fault Refusal := Host.Core.run Sys2Proof.core n s

/-- The state after a step on `s` that left the registers `r`, gave the response (`st`, `done`, `rdata`) and emitted `e` (R160). -/
def State.after (s : State) (r : Regs) (st : Status) (done : Bool) (rdata : Word) (e : List Byte) : State :=
  { commands := s.commands, regs := r, responses := s.responses ++ [⟨st, done, rdata⟩], out := s.out ++ e }

/-- The state after an illegal command on `s` (R207): two registers written, `st = 8`, everything else frozen. -/
def State.afterIllegal (s : State) : State :=
  { commands := s.commands, out := s.out
    regs := { s.regs with fault := true, err := .illegalCommand }
    responses := s.responses ++ [⟨.illegalCommand, false, 0#32⟩] }

/-- The nine defined opcodes (R62). -/
def definedOpcodes : List (BitVec 8) :=
  [0x00#8, 0x01#8, 0x10#8, 0x11#8, 0x12#8, 0x13#8, 0x20#8, 0x21#8, 0x30#8]

/-- The opcodes of operand form zero (R63). -/
def zeroFormOpcodes : List (BitVec 8) := [0x00#8, 0x01#8, 0x10#8, 0x11#8, 0x12#8, 0x21#8]

/-- The complete list of illegal commands (R65), by the raw fields of the word; written without the decoder and without `exec`. -/
inductive ListedIllegal (opc : BitVec 8) (opr : Word) (r : Regs) : Prop where
  /-- Item 1. -/
  | undefinedOpcode (h : opc ∉ definedOpcodes)
  /-- Item 2, form zero. -/
  | operandNotZero (h : opc ∈ zeroFormOpcodes) (h' : opr ≠ 0#32)
  /-- Item 2, form byte. -/
  | operandNoByte (h : opc = 0x20#8) (h' : 0xFF < opr.toNat)
  /-- Item 2, form regnum. -/
  | reservedRegister (h : opc = 0x30#8) (h' : 4 < opr.toNat)
  /-- Item 3. -/
  | faulted (h : r.fault = true) (h' : ¬ (opc = 0x01#8 ∧ opr = 0#32)) (h'' : ¬ (opc = 0x30#8 ∧ opr = 0#32))
  /-- Item 4. -/
  | busy (h : opc ∈ [0x10#8, 0x11#8, 0x12#8, 0x13#8]) (h' : r.mode ≠ .idle)
  /-- Item 5. -/
  | noType (h : opc = 0x13#8) (h' : r.tvalid = false)
  /-- Item 6. -/
  | pushInIdle (h : opc = 0x20#8) (h' : r.mode = .idle)
  /-- Item 7. -/
  | endInIdleOrBuild (h : opc = 0x21#8) (h' : r.mode = .idle ∨ r.mode = .build)
  /-- Item 8, RD LEN. -/
  | noLength (h : opc = 0x30#8) (h' : opr = 1#32) (h'' : r.valid = false)
  /-- Item 8, RD TYPE and RD PROPS. -/
  | noTypeToRead (h : opc = 0x30#8) (h' : opr = 2#32 ∨ opr = 4#32) (h'' : r.tvalid = false)
  /-- Item 8, RD CRCOUT. -/
  | noCrcToRead (h : opc = 0x30#8) (h' : opr = 3#32) (h'' : r.cvalid = false)

/-- The last `n` bytes shifted into a packed type are letters. -/
def LettersHeld (n : Nat) (t : Word) : Prop := ∀ k < n, isLetter (t.extractLsb' (8 * k) 8) = true

/-- The invariants (a) to (h) of R25; (h) on `MODE` holds by the type `Mode` (log entry 5). -/
structure StatedInvariants (r : Regs) : Prop where
  a : r.valid = true → r.tvalid = true ∧ r.cvalid = true
  b : r.mode ≠ .idle → r.valid = false
  cParse : r.mode = .parse → r.tvalid = false ∧ r.cvalid = false
  cBuild : r.mode = .build →
    r.tvalid = true ∧ r.cvalid = false ∧ r.ph = .dat ∧ 1 ≤ r.len.toNat ∧ r.cnt.toNat < r.len.toNat
  cCrc : r.mode = .crc → r.cvalid = false
  cType : r.mode = .type → r.tvalid = false ∧ r.cnt.toNat ≤ 4
  d : r.ph ≠ .len → r.mode = .parse ∨ r.mode = .build
  e : r.fault = true ↔ r.err = .illegalCommand
  f : r.fault = false → r.err ≠ .ok → r.mode = .idle ∧ r.valid = false
  g : r.tvalid = true → ∀ k < 4, isLetter (typeByte r.type k) = true
  h : r.err ∈ [Status.ok, .invalidTypeBytes, .insufficientData, .crcMismatch, .illegalCommand]

/-- The ranges of `CNT` (R15), and what `TBAD` remembers (R23): while it is 0, the type bytes taken so far are letters. -/
structure PositionInvariants (r : Regs) : Prop where
  rest : r.mode = .idle ∨ r.mode = .crc → r.cnt = 0#32
  fields : r.mode = .parse → r.ph ≠ .dat → r.cnt.toNat ≤ 3
  data : r.mode = .parse → r.ph = .dat → r.cnt.toNat < r.len.toNat
  typeLoad : r.mode = .type → r.tbad = false → LettersHeld r.cnt.toNat r.type
  typeField : r.mode = .parse → r.ph = .typ → r.tbad = false → LettersHeld r.cnt.toNat r.type
  typeDone : r.mode = .parse → r.ph = .dat ∨ r.ph = .crc → r.tbad = false → LettersHeld 4 r.type

/-- The invariant every step keeps: R25 with the ranges that make it inductive. -/
structure BlockInv (r : Regs) : Prop where
  stated : StatedInvariants r
  position : PositionInvariants r

/-- The rows of the transition table R170 for an accepted command: from a state, by a command, to (`MODE`, `PH`) with `done` and `st`. -/
inductive AcceptedRow (r : Regs) : Instr → Mode → Phase → Bool → Status → Prop where
  | clr : AcceptedRow r .clr .idle .len false .ok
  | nop : AcceptedRow r .nop r.mode r.ph false .ok
  | rd (n x : Word) (v : View) (h : viewOf n = some v) (h' : readView v r = some x) : AcceptedRow r (.rd n) r.mode r.ph false .ok
  | crcs (h : r.mode = .idle) : AcceptedRow r .crcs .crc .len false .ok
  | typs (h : r.mode = .idle) : AcceptedRow r .typs .type .len false .ok
  | prss (h : r.mode = .idle) : AcceptedRow r .prss .parse .len false .ok
  | bldsEmpty (h : r.mode = .idle) (ht : r.tvalid = true) : AcceptedRow r (.blds 0#32) .idle .len true .ok
  | blds (n : Word) (h : r.mode = .idle) (ht : r.tvalid = true) (hn : n ≠ 0#32) : AcceptedRow r (.blds n) .build .dat false .ok
  | crcPush (b : Byte) (h : r.mode = .crc) : AcceptedRow r (.push b) .crc .len false .ok
  | crcEnd (h : r.mode = .crc) : AcceptedRow r .endInput .idle .len true .ok
  | typePush (b : Byte) (h : r.mode = .type) : AcceptedRow r (.push b) .type .len false .ok
  | typeEnd (h : r.mode = .type) (hc : r.cnt = 4#32) (hb : r.tbad = false) : AcceptedRow r .endInput .idle .len true .ok
  | typeEndBad (h : r.mode = .type) (hc : ¬ (r.cnt = 4#32 ∧ r.tbad = false)) :
      AcceptedRow r .endInput .idle .len true .invalidTypeBytes
  | lenPush (b : Byte) (h : r.mode = .parse) (hp : r.ph = .len) (hc : r.cnt.toNat < 3) : AcceptedRow r (.push b) .parse .len false .ok
  | lenLast (b : Byte) (h : r.mode = .parse) (hp : r.ph = .len) (hc : r.cnt = 3#32) : AcceptedRow r (.push b) .parse .typ false .ok
  | typPush (b : Byte) (h : r.mode = .parse) (hp : r.ph = .typ) (hc : r.cnt.toNat < 3) : AcceptedRow r (.push b) .parse .typ false .ok
  | typLast (b : Byte) (h : r.mode = .parse) (hp : r.ph = .typ) (hc : r.cnt = 3#32) (hl : r.len ≠ 0#32) :
      AcceptedRow r (.push b) .parse .dat false .ok
  | typLastEmpty (b : Byte) (h : r.mode = .parse) (hp : r.ph = .typ) (hc : r.cnt = 3#32) (hl : r.len = 0#32) :
      AcceptedRow r (.push b) .parse .crc false .ok
  | datPush (b : Byte) (h : r.mode = .parse) (hp : r.ph = .dat) (hc : r.cnt.toNat + 1 < r.len.toNat) :
      AcceptedRow r (.push b) .parse .dat false .ok
  | datLast (b : Byte) (h : r.mode = .parse) (hp : r.ph = .dat) (hc : r.cnt.toNat + 1 = r.len.toNat) :
      AcceptedRow r (.push b) .parse .crc false .ok
  | crcField (b : Byte) (h : r.mode = .parse) (hp : r.ph = .crc) (hc : r.cnt.toNat < 3) : AcceptedRow r (.push b) .parse .crc false .ok
  | crcBadType (b : Byte) (h : r.mode = .parse) (hp : r.ph = .crc) (hc : r.cnt = 3#32) (hb : r.tbad = true) :
      AcceptedRow r (.push b) .idle .len true .invalidTypeBytes
  | crcDiffers (b : Byte) (h : r.mode = .parse) (hp : r.ph = .crc) (hc : r.cnt = 3#32) (hb : r.tbad = false)
      (hr : shiftIn r.rcrc b ≠ crcFinish r.crc) : AcceptedRow r (.push b) .idle .len true .crcMismatch
  | crcEqual (b : Byte) (h : r.mode = .parse) (hp : r.ph = .crc) (hc : r.cnt = 3#32) (hb : r.tbad = false)
      (hr : shiftIn r.rcrc b = crcFinish r.crc) : AcceptedRow r (.push b) .idle .len true .ok
  | parseEnd (h : r.mode = .parse) : AcceptedRow r .endInput .idle .len true .insufficientData
  | buildPush (b : Byte) (h : r.mode = .build) (hc : r.cnt.toNat + 1 < r.len.toNat) : AcceptedRow r (.push b) .build .dat false .ok
  | buildLast (b : Byte) (h : r.mode = .build) (hc : r.cnt.toNat + 1 = r.len.toNat) : AcceptedRow r (.push b) .idle .len true .ok

/-- The transition table R170: an accepted command moves by one of its rows, under `FAULT = 1` only CLR and RD STATUS are accepted,
and a listed illegal command does not move ("ill", `st = 8`). -/
inductive TransitionRow (r : Regs) (i : Instr) (m : Mode) (p : Phase) (done : Bool) (st : Status) : Prop where
  | accepted (h : r.fault = false ∨ i = .clr ∨ i = .rd 0#32) (row : AcceptedRow r i m p done st)
  | ill (h : ListedIllegal i.opcode.code i.operand r) (hm : m = r.mode) (hp : p = r.ph) (hd : done = false) (hs : st = .illegalCommand)

/-- No response had `st = 8` (R173; log entry 7 on the rule's parenthesis). -/
def AllAccepted (rs : List Response) : Prop := ∀ p ∈ rs, p.st ≠ .illegalCommand

/-- A run from reset that ended in `t` is clean (R173). -/
def State.Clean (t : State) : Prop := AllAccepted t.responses

/-- A run that ended in `t` is quiescent (R173): clean, and no operation in progress. -/
def State.Quiescent (t : State) : Prop := t.Clean ∧ t.regs.mode = .idle

end Sys2Proof.Machine
end

