-- ==== Sys2Proof/Certificates/Slice0/Obligations.lean ====
section
/-! DEFINITION. The statements for the provers, from the numbered rules of spec/.
A docstring names the rule; where it says that the spec marks the sentence as derived, the statement has basis 'derived'. -/

open Sys2Proof Sys2Proof.Machine

/-! ### Encoding -/

/-- A few command words written out from the table of R62, one for every mnemonic, decode to the command they stand for. -/
def Obligations.WrittenWordsDecode : Prop :=
  decode 0x0000000000#40 = .ok .nop ∧ decode 0x0100000000#40 = .ok .clr ∧ decode 0x1000000000#40 = .ok .crcs ∧
  decode 0x1100000000#40 = .ok .typs ∧ decode 0x1200000000#40 = .ok .prss ∧ decode 0x1300000005#40 = .ok (.blds 5#32) ∧
  decode 0x2000000072#40 = .ok (.push 0x72#8) ∧ decode 0x2100000000#40 = .ok .endInput ∧
  decode 0x3000000003#40 = .ok (.rd 3#32)

/-- Every command with a legal operand is decoded back from its word, with every operand at every value (R60, R63, R68). -/
def Obligations.EncodedCommandDecodesBack : Prop :=
  ∀ i : Instr, i.WellFormed → decode (encode i) = .ok i

/-- Each word has at most one meaning: a decoded command is well-formed and its encoding is the word, all 40 bits of it. -/
def Obligations.DecodedWordIsTheEncoding : Prop :=
  ∀ (w : CmdWord) (i : Instr), decode w = .ok i → i.WellFormed ∧ encode i = w

/-- The decoder accepts a word exactly when the opcode is defined and the operand is in its form (R62, R63, R65 items 1 and 2). -/
def Obligations.DecodesExactlyLegalWords : Prop :=
  ∀ (opc : BitVec 8) (opr : Word), (∃ i, decode (opc ++ opr) = .ok i) ↔
    (opc ∈ zeroFormOpcodes ∧ opr = 0#32) ∨ (opc = 0x20#8 ∧ opr.toNat ≤ 0xFF) ∨ opc = 0x13#8 ∨ (opc = 0x30#8 ∧ opr.toNat ≤ 4)

/-- R64: reserved operand bits are checked; the word is illegal, not executed with the extra bits ignored. -/
def Obligations.ReservedOperandBitsAreRefused : Prop :=
  ∀ (s : State) (opc : BitVec 8) (opr : Word) (rest : List CmdWord), s.commands = (opc ++ opr) :: rest →
    (opc ∈ zeroFormOpcodes ∧ opr ≠ 0#32) ∨ (opc = 0x20#8 ∧ opr.extractLsb' 8 24 ≠ 0#24) ∨ (opc = 0x30#8 ∧ 4 < opr.toNat) →
    step s = .next (State.afterIllegal { s with commands := rest })

/-! ### The step -/

/-- A step whose next word decodes to `i` is `exec i` on the state whose port has handed the word over. -/
def Obligations.StepRunsTheDecodedCommand : Prop :=
  ∀ (s : State) (w : CmdWord) (rest : List CmdWord) (i : Instr), s.commands = w :: rest → decode w = .ok i →
    step s = exec i { s with commands := rest }

/-- A step whose next word is no command is an illegal command (R65 items 1 and 2, R207). -/
def Obligations.StepRefusesAWordThatIsNoCommand : Prop :=
  ∀ (s : State) (w : CmdWord) (rest : List CmdWord) (e : DecodeError), s.commands = w :: rest → decode w = .error e →
    step s = .next (State.afterIllegal { s with commands := rest })

/-- With no word at the port a step changes nothing (the model's choice, log entry 3; R221, R230). -/
def Obligations.StepWithoutACommandWaits : Prop :=
  ∀ s : State, s.commands = [] → step s = .next s

/-- No step stops, and a step that takes a word does what the block's own step does with that word and the registers, its only state (10_state.md section 6):
it writes the registers, appends one response and appends at most twelve bytes (00_scope.md section 4, R66, R67). -/
def Obligations.EveryStepAnswersOnce : Prop :=
  ∀ s : State, ∃ t, step s = .next t ∧
    ∀ (w : CmdWord) (rest : List CmdWord), s.commands = w :: rest →
      let e := blockStep w s.regs
      t.commands = rest ∧ t.regs = e.regs ∧ t.responses = s.responses ++ [e.resp] ∧ t.out = s.out ++ e.emitted ∧
        e.emitted.length ≤ Config.maxEmission

/-- R65 with R207: a word on the list has the effect of an illegal command, and a word not on it is accepted. -/
def Obligations.IllegalExactlyWhenListed : Prop :=
  ∀ (s : State) (opc : BitVec 8) (opr : Word) (rest : List CmdWord), s.commands = (opc ++ opr) :: rest →
    (ListedIllegal opc opr s.regs → step s = .next (State.afterIllegal { s with commands := rest })) ∧
    (¬ ListedIllegal opc opr s.regs →
      ∃ t p, step s = .next t ∧ t.responses = s.responses ++ [p] ∧ p.st ≠ .illegalCommand ∧
        (t.regs.fault = true → s.regs.fault = true))

/-- R24: `FAULT` is set by an illegal command and by nothing else, only CLR clears it, and under it every command but CLR and RD STATUS
is refused and changes nothing. -/
def Obligations.FaultHoldsUntilClear : Prop :=
  ∀ (s t : State) (w : CmdWord) (rest : List CmdWord), BlockInv s.regs → s.commands = w :: rest → step s = .next t →
    (s.regs.fault = false → (t.regs.fault = true ↔ t.responses = s.responses ++ [⟨.illegalCommand, false, 0#32⟩])) ∧
    (s.regs.fault = true → (t.regs.fault = false ↔ w = 0x0100000000#40)) ∧
    (s.regs.fault = true → w ≠ 0x0100000000#40 → w ≠ 0x3000000000#40 →
      t = { s with commands := rest, responses := s.responses ++ [⟨.illegalCommand, false, 0#32⟩] }) ∧
    (s.regs.fault = true → w = 0x3000000000#40 →
      t = { s with commands := rest, responses := s.responses ++ [⟨.ok, false, statusWord s.regs⟩] })

/-- The machine on a command sequence is the block's run on it, whose only state is the registers, with the outputs appended to the two traces (10_state.md section 6).
So two blocks with equal registers answer every command sequence alike, whatever they have answered and emitted before
(10_state.md section 1, 20_memory.md section 1). -/
def Obligations.EqualRegistersBehaveAlike : Prop :=
  (∀ (ws rest : List CmdWord) (s : State), s.commands = ws ++ rest →
    let b := blockRun ws s.regs
    run ws.length s = .next { commands := rest, regs := b.regs, responses := s.responses ++ b.responses, out := s.out ++ b.out }) ∧
  ∀ (n : Nat) (s t : State), s.regs = t.regs → s.commands = t.commands →
    ∃ s' t' ps e, run n s = .next s' ∧ run n t = .next t' ∧ s'.regs = t'.regs ∧ s'.commands = t'.commands ∧
      s'.responses = s.responses ++ ps ∧ t'.responses = t.responses ++ ps ∧ s'.out = s.out ++ e ∧ t'.out = t.out ++ e

/-- What hardware reset leaves (R33, R230); the block does nothing on its own after it.
The last clause rests on the model's choices that no command word is pending at reset (log entry 1) and that a step without one exists (log entry 3). -/
def Obligations.ResetLeaves : Prop :=
  let r := State.reset.regs
  r.valid = false ∧ r.tvalid = false ∧ r.cvalid = false ∧ r.tbad = false ∧ r.fault = false ∧ r.err = .ok ∧
    r.mode = .idle ∧ r.ph = .len ∧ r.cnt = 0#32 ∧ r.len = 0#32 ∧ r.type = 0#32 ∧ r.rcrc = 0#32 ∧ r.crc = 0xFFFFFFFF#32 ∧
    State.reset.out = [] ∧ statusWord r = 0x00000000#32 ∧ step State.reset = .next State.reset

/-! ### Housekeeping -/

/-- R161: NOP changes no register and emits nothing; under `FAULT` it is refused. -/
def Obligations.NopChangesNothing : Prop :=
  (∀ opr : Word, decode (0x00#8 ++ opr) = .ok .nop ↔ opr = 0#32) ∧ ∀ s : State,
    (s.regs.fault = false → exec .nop s = .next (s.after s.regs .ok false 0#32 [])) ∧
    (s.regs.fault = true → exec .nop s = .next s.afterIllegal)

/-- R162: CLR gives every register its reset value in every state, and keeps OUT. -/
def Obligations.ClearResetsEveryRegister : Prop :=
  (∀ opr : Word, decode (0x01#8 ++ opr) = .ok .clr ↔ opr = 0#32) ∧ ∀ s : State,
    exec .clr s = .next (s.after
      { crc := 0xFFFFFFFF#32, len := 0#32, type := 0#32, rcrc := 0#32, cnt := 0#32, mode := .idle, ph := .len, err := .ok,
        valid := false, tvalid := false, cvalid := false, tbad := false, fault := false } .ok false 0#32 [])

/-- R166: RD answers the view named by the register number where it may be read, and is illegal elsewhere; it changes no register. -/
def Obligations.ReadAnswersOnlyReadableViews : Prop :=
  (∀ n : Word, n.toNat ≤ 4 → decode (0x30#8 ++ n) = .ok (.rd n)) ∧ ∀ s : State,
    exec (.rd 0#32) s = .next (s.after s.regs .ok false (statusWord s.regs) []) ∧
    (s.regs.fault = false → s.regs.valid = true → exec (.rd 1#32) s = .next (s.after s.regs .ok false s.regs.len [])) ∧
    (s.regs.fault = false → s.regs.tvalid = true → exec (.rd 2#32) s = .next (s.after s.regs .ok false s.regs.type [])) ∧
    (s.regs.fault = false → s.regs.cvalid = true →
      exec (.rd 3#32) s = .next (s.after s.regs .ok false (s.regs.crc ^^^ 0xFFFFFFFF#32) [])) ∧
    (s.regs.fault = false → s.regs.tvalid = true →
      exec (.rd 4#32) s = .next (s.after s.regs .ok false (propsWord s.regs.type) [])) ∧
    (s.regs.fault = true ∨ s.regs.valid = false → exec (.rd 1#32) s = .next s.afterIllegal) ∧
    (s.regs.fault = true ∨ s.regs.tvalid = false → exec (.rd 2#32) s = .next s.afterIllegal) ∧
    (s.regs.fault = true ∨ s.regs.cvalid = false → exec (.rd 3#32) s = .next s.afterIllegal) ∧
    (s.regs.fault = true ∨ s.regs.tvalid = false → exec (.rd 4#32) s = .next s.afterIllegal) ∧
    (∀ n : Word, 4 < n.toNat → exec (.rd n) s = .next s.afterIllegal)

/-- R26: the fields of STATUS, bit by bit, with the codes of R17, R18 and R200 written out. -/
def Obligations.StatusFieldLayout : Prop :=
  ∀ r : Regs,
    (statusWord r).extractLsb' 0 3 =
      (match r.mode with | .idle => 0#3 | .crc => 1#3 | .type => 2#3 | .parse => 3#3 | .build => 4#3) ∧
    (statusWord r).extractLsb' 3 2 = (match r.ph with | .len => 0#2 | .typ => 1#2 | .dat => 2#2 | .crc => 3#2) ∧
    (statusWord r).getLsbD 5 = r.valid ∧ (statusWord r).getLsbD 6 = r.tvalid ∧ (statusWord r).getLsbD 7 = r.cvalid ∧
    (statusWord r).getLsbD 8 = r.fault ∧ (statusWord r).extractLsb' 9 3 = 0#3 ∧
    (statusWord r).extractLsb' 12 4 =
      (match r.err with
       | .ok => 0#4 | .invalidTypeBytes => 1#4 | .invalidSignature => 2#4 | .insufficientData => 3#4 | .crcMismatch => 4#4
       | .chunkNotFound => 5#4 | .encodingError => 6#4 | .unexpectedTrailingBytes => 7#4 | .illegalCommand => 8#4) ∧
    (statusWord r).extractLsb' 16 16 = 0#16 ∧ statusWord Regs.reset = 0#32

/-- R30 with R110 to R115: the six predicates in PROPS, read from bit 5 of the type's bytes. -/
def Obligations.PropertyBitsOfAType : Prop :=
  ∀ t0 t1 t2 t3 : Byte,
    let t := unbe32 [t0, t1, t2, t3]
    (propsWord t).getLsbD 0 = !t0.getLsbD 5 ∧ (propsWord t).getLsbD 1 = !t1.getLsbD 5 ∧
    (propsWord t).getLsbD 2 = t1.getLsbD 5 ∧ (propsWord t).getLsbD 3 = !t2.getLsbD 5 ∧
    (propsWord t).getLsbD 4 = t3.getLsbD 5 ∧ (propsWord t).getLsbD 5 = !t2.getLsbD 5 ∧
    (propsWord t).extractLsb' 6 26 = 0#26

/-- R163 and R164, the rows of IDLE: PUSH and END outside an operation are illegal. -/
def Obligations.NothingToPushOrEndInIdle : Prop :=
  ∀ (s : State) (b : Byte), s.regs.mode = .idle →
    exec (.push b) s = .next s.afterIllegal ∧ exec .endInput s = .next s.afterIllegal

/-! ### The CRC generator -/

/-- R85: CRCS. -/
def Obligations.CrcStart : Prop :=
  (∀ opr : Word, decode (0x10#8 ++ opr) = .ok .crcs ↔ opr = 0#32) ∧ ∀ s : State,
    (s.regs.fault = false → s.regs.mode = .idle →
      exec .crcs s = .next (s.after
        { s.regs with mode := .crc, crc := 0xFFFFFFFF#32, cvalid := false, valid := false, err := .ok } .ok false 0#32 [])) ∧
    (s.regs.fault = true ∨ s.regs.mode ≠ .idle → exec .crcs s = .next s.afterIllegal)

/-- R86: PUSH in mode CRC. -/
def Obligations.CrcPush : Prop :=
  ∀ (s : State) (b : Byte), decode (0x20#8 ++ (0#24 ++ b)) = .ok (.push b) ∧
    (s.regs.fault = false → s.regs.mode = .crc →
      exec (.push b) s = .next (s.after { s.regs with crc := crcUpdate s.regs.crc b } .ok false 0#32 []))

/-- R87: END in mode CRC keeps `CRC`, and the RD CRCOUT after it inverts it.
That this is `crc32` of the bytes pushed, which the rule marks as derived, is `StandaloneCrcReadsCrc32`. -/
def Obligations.CrcEnd : Prop :=
  (∀ opr : Word, decode (0x21#8 ++ opr) = .ok .endInput ↔ opr = 0#32) ∧ ∀ s : State, s.regs.fault = false → s.regs.mode = .crc →
    exec .endInput s = .next (s.after { s.regs with mode := .idle, cvalid := true } .ok true 0#32 []) ∧
      ∀ t, exec .endInput s = .next t →
        exec (.rd 3#32) t = .next (t.after t.regs .ok false (s.regs.crc ^^^ 0xFFFFFFFF#32) [])

/-- R84, R87 and the pseudo-instruction `CRC32 s` (R69); the spec marks the result as derived:
from every unfaulted idle state the standalone CRC of any message reads `crc32` of it through CRCOUT. -/
def Obligations.StandaloneCrcReadsCrc32 : Prop :=
  ∀ (s : State) (m : List Byte) (rest : List CmdWord), s.regs.fault = false → s.regs.mode = .idle →
    s.commands = wordsOf (crcProgram m) ++ rest →
    run (m.length + 3) s = .next
      { commands := rest, out := s.out
        regs := { s.regs with crc := crc32 m ^^^ 0xFFFFFFFF#32, cvalid := true, valid := false, err := .ok }
        responses := s.responses ++ List.replicate (m.length + 1) ⟨.ok, false, 0#32⟩ ++
          [⟨.ok, true, 0#32⟩, ⟨.ok, false, crc32 m⟩] }

/-- R83, which the spec marks as derived: the table form equals the bitwise form. -/
def Obligations.CrcTableForm : Prop :=
  ∀ (c : Word) (b : Byte), crcUpdate c b = crcTable ((c ^^^ b.setWidth 32).extractLsb' 0 8) ^^^ (c >>> 8)

/-- R92, which the spec takes from general knowledge: with the CRC appended least significant byte first, the remainder is constant. -/
def Obligations.CrcResidueOfReversedCrc : Prop :=
  ∀ m : List Byte, crcOver crcInitial (m ++ (be32 (crc32 m)).reverse) = 0xDEBB20E3#32

/-! ### The chunk-type unit -/

/-- R102: TYPS. -/
def Obligations.TypeStart : Prop :=
  (∀ opr : Word, decode (0x11#8 ++ opr) = .ok .typs ↔ opr = 0#32) ∧ ∀ s : State,
    (s.regs.fault = false → s.regs.mode = .idle →
      exec .typs s = .next (s.after
        { s.regs with mode := .type, cnt := 0#32, type := 0#32, tbad := false, tvalid := false, valid := false, err := .ok }
        .ok false 0#32 [])) ∧
    (s.regs.fault = true ∨ s.regs.mode ≠ .idle → exec .typs s = .next s.afterIllegal)

/-- R104: PUSH in mode TYPE. -/
def Obligations.TypePush : Prop :=
  ∀ (s : State) (b : Byte), decode (0x20#8 ++ (0#24 ++ b)) = .ok (.push b) ∧
    (s.regs.fault = false → s.regs.mode = .type →
      exec (.push b) s = .next (s.after
        (if s.regs.cnt = 4#32 then { s.regs with tbad := true }
         else { s.regs with
           type := (s.regs.type <<< 8) ||| b.setWidth 32
           tbad := if (0x41 ≤ b.toNat ∧ b.toNat ≤ 0x5A) ∨ (0x61 ≤ b.toNat ∧ b.toNat ≤ 0x7A) then s.regs.tbad else true
           cnt := s.regs.cnt + 1#32 }) .ok false 0#32 []))

/-- R108: END in mode TYPE. -/
def Obligations.TypeEnd : Prop :=
  (∀ opr : Word, decode (0x21#8 ++ opr) = .ok .endInput ↔ opr = 0#32) ∧ ∀ s : State, s.regs.fault = false → s.regs.mode = .type →
    (s.regs.cnt = 4#32 → s.regs.tbad = false →
      exec .endInput s = .next (s.after { s.regs with tvalid := true, mode := .idle, cnt := 0#32 } .ok true 0#32 [])) ∧
    (s.regs.cnt ≠ 4#32 ∨ s.regs.tbad = true →
      exec .endInput s = .next (s.after
        { s.regs with tvalid := false, err := .invalidTypeBytes, mode := .idle, cnt := 0#32 } .invalidTypeBytes true 0#32 []))

/-- R109, which the spec marks as derived: `LDTYPE s` succeeds exactly on four letters, from every unfaulted idle state. -/
def Obligations.TypeLoadAcceptsFourLetters : Prop :=
  ∀ (s : State) (m : List Byte) (rest : List CmdWord), s.regs.fault = false → s.regs.mode = .idle →
    s.commands = wordsOf (ldType m) ++ rest →
    ∃ t, run (m.length + 2) s = .next t ∧ t.commands = rest ∧ t.out = s.out ∧ t.regs.mode = .idle ∧ t.regs.fault = false ∧
      (m.length = 4 ∧ (∀ b ∈ m, isLetter b = true) →
        t.responses = s.responses ++ List.replicate (m.length + 1) ⟨.ok, false, 0#32⟩ ++ [⟨.ok, true, 0#32⟩] ∧
          t.regs.tvalid = true ∧ t.regs.err = .ok ∧ t.regs.type = unbe32 m ∧ be32 t.regs.type = m) ∧
      (¬ (m.length = 4 ∧ ∀ b ∈ m, isLetter b = true) →
        t.responses = s.responses ++ List.replicate (m.length + 1) ⟨.ok, false, 0#32⟩ ++ [⟨.invalidTypeBytes, true, 0#32⟩] ∧
          t.regs.tvalid = false ∧ t.regs.err = .invalidTypeBytes)

/-- R117: types are equal exactly when their words are; a loaded type is never edited, it changes only by being replaced as a whole. -/
def Obligations.LoadedTypeIsNeverEdited : Prop :=
  (∀ a b : Word, be32 a = be32 b ↔ a = b) ∧ ∀ (i : Instr) (s t : State), BlockInv s.regs → s.regs.tvalid = true → exec i s = .next t → t.regs.type ≠ s.regs.type →
    (i = .typs ∨ i = .prss ∨ i = .clr) ∧ t.regs.tvalid = false ∧ t.regs.type = 0#32

/-! ### Chunk serialization -/

/-- R122 and R123: BLDS emits the length and type fields, and completes at once when the length is 0; without a loaded type it is illegal. -/
def Obligations.BuildStart : Prop :=
  ∀ (s : State) (n : Word), decode (0x13#8 ++ n) = .ok (.blds n) ∧
    (s.regs.fault = false → s.regs.mode = .idle → s.regs.tvalid = true →
      let c := crcUpdate (crcUpdate (crcUpdate (crcUpdate 0xFFFFFFFF#32 (s.regs.type.extractLsb' 24 8))
        (s.regs.type.extractLsb' 16 8)) (s.regs.type.extractLsb' 8 8)) (s.regs.type.extractLsb' 0 8)
      (n = 0#32 →
        exec (.blds n) s = .next (s.after
          { s.regs with len := n, cnt := 0#32, crc := c, err := .ok, valid := true, cvalid := true } .ok true 0#32
          (be32 0#32 ++ be32 s.regs.type ++ be32 (c ^^^ 0xFFFFFFFF#32)))) ∧
      (n ≠ 0#32 →
        exec (.blds n) s = .next (s.after
          { s.regs with len := n, cnt := 0#32, crc := c, err := .ok, valid := false, cvalid := false, mode := .build, ph := .dat }
          .ok false 0#32 (be32 n ++ be32 s.regs.type)))) ∧
    (s.regs.fault = true ∨ s.regs.mode ≠ .idle ∨ s.regs.tvalid = false → exec (.blds n) s = .next s.afterIllegal)

/-- R124: PUSH in mode BUILD. -/
def Obligations.BuildPush : Prop :=
  ∀ (s : State) (b : Byte), decode (0x20#8 ++ (0#24 ++ b)) = .ok (.push b) ∧
    (s.regs.fault = false → s.regs.mode = .build →
      (s.regs.cnt + 1#32 = s.regs.len →
        exec (.push b) s = .next (s.after
          { s.regs with crc := crcUpdate s.regs.crc b, mode := .idle, ph := .len, cnt := 0#32, valid := true, cvalid := true }
          .ok true 0#32 (b :: be32 (crcUpdate s.regs.crc b ^^^ 0xFFFFFFFF#32)))) ∧
      (s.regs.cnt + 1#32 ≠ s.regs.len →
        exec (.push b) s = .next (s.after
          { s.regs with crc := crcUpdate s.regs.crc b, cnt := s.regs.cnt + 1#32 } .ok false 0#32 [b])))

/-- R125: END in mode BUILD is illegal and keeps the bytes already emitted. -/
def Obligations.BuildCannotBeEnded : Prop :=
  ∀ s : State, s.regs.mode = .build → exec .endInput s = .next s.afterIllegal ∧ s.afterIllegal.out = s.out

/-- R126, which the spec marks as derived: `BLDS n` and the `n` data bytes emit exactly `chunk_serialize`, from every unfaulted idle state with a loaded type.
R193, so marked as well: from every unfaulted idle state the host procedure `NEWCHUNK t, d` yields those bytes, or fails with `InvalidTypeBytes` and emits none. -/
def Obligations.BuildEmitsTheSerializedChunk : Prop :=
  (∀ (s : State) (t d : List Byte), s.regs.fault = false → s.regs.mode = .idle → d.length ≤ Config.maxDataLength →
    (isWellFormedType t = true →
      ∃ s', hostNewChunk t d s = .built (chunkSerialize t d) s' ∧ s'.out = s.out ++ chunkSerialize t d ∧
        s'.commands = s.commands ∧ s'.regs.fault = false ∧ s'.regs.mode = .idle) ∧
    (isWellFormedType t = false →
      ∃ s', hostNewChunk t d s = .failed .invalidTypeBytes s' ∧ s'.out = s.out ∧
        s'.commands = s.commands ∧ s'.regs.fault = false ∧ s'.regs.mode = .idle)) ∧
  ∀ (s : State) (d : List Byte) (rest : List CmdWord), s.regs.fault = false → s.regs.mode = .idle → s.regs.tvalid = true →
    d.length ≤ Config.maxDataLength → s.commands = wordsOf (buildProgram d) ++ rest →
    ∃ t, run (d.length + 1) s = .next t ∧ t.commands = rest ∧
      t.responses = s.responses ++ List.replicate d.length ⟨.ok, false, 0#32⟩ ++ [⟨.ok, true, 0#32⟩] ∧
      t.out = s.out ++ chunkSerialize (be32 s.regs.type) d ∧ (chunkSerialize (be32 s.regs.type) d).length = 12 + d.length ∧
      t.regs.mode = .idle ∧ t.regs.fault = false ∧ t.regs.valid = true ∧ t.regs.tvalid = true ∧ t.regs.cvalid = true ∧
      t.regs.len.toNat = d.length ∧ t.regs.type = s.regs.type ∧
      t.regs.crc ^^^ 0xFFFFFFFF#32 = crc32 (be32 s.regs.type ++ d)

/-- R236 and R173: over an accepted command sequence without CLR that starts and ends idle, OUT grows by whole chunks.
The premise on CLR is the model's addition: a CLR inside a BUILD leaves a partial chunk (log entry 7). -/
def Obligations.AcceptedRunsEmitWholeChunks : Prop :=
  ∀ (n : Nat) (s t : State) (ps : List Response), BlockInv s.regs → s.regs.mode = .idle →
    0x0100000000#40 ∉ s.commands → run n s = .next t →
    t.responses = s.responses ++ ps → AllAccepted ps → t.regs.mode = .idle →
    ∃ cs : List (List Byte × List Byte),
      (∀ c ∈ cs, isWellFormedType c.1 = true ∧ c.2.length ≤ Config.maxDataLength) ∧
      t.out = s.out ++ (cs.map (fun c => chunkSerialize c.1 c.2)).flatten

/-! ### Chunk parse -/

/-- R137: PRSS. -/
def Obligations.ParseStart : Prop :=
  (∀ opr : Word, decode (0x12#8 ++ opr) = .ok .prss ↔ opr = 0#32) ∧ ∀ s : State,
    (s.regs.fault = false → s.regs.mode = .idle →
      exec .prss s = .next (s.after
        { s.regs with mode := .parse, ph := .len, cnt := 0#32, len := 0#32, type := 0#32, rcrc := 0#32, crc := 0xFFFFFFFF#32,
                      tbad := false, valid := false, tvalid := false, cvalid := false, err := .ok } .ok false 0#32 [])) ∧
    (s.regs.fault = true ∨ s.regs.mode ≠ .idle → exec .prss s = .next s.afterIllegal)

/-- R140: PUSH in phase LEN. -/
def Obligations.ParseLengthByte : Prop :=
  ∀ (s : State) (b : Byte), s.regs.fault = false → s.regs.mode = .parse → s.regs.ph = .len →
    (s.regs.cnt = 3#32 →
      exec (.push b) s = .next (s.after
        { s.regs with len := (s.regs.len <<< 8) ||| b.setWidth 32, ph := .typ, cnt := 0#32 } .ok false 0#32 [])) ∧
    (s.regs.cnt ≠ 3#32 →
      exec (.push b) s = .next (s.after
        { s.regs with len := (s.regs.len <<< 8) ||| b.setWidth 32, cnt := s.regs.cnt + 1#32 } .ok false 0#32 []))

/-- R141: PUSH in phase TYP; a byte that is no letter is remembered in `TBAD` only. -/
def Obligations.ParseTypeByte : Prop :=
  ∀ (s : State) (b : Byte), s.regs.fault = false → s.regs.mode = .parse → s.regs.ph = .typ →
    (s.regs.cnt = 3#32 →
      exec (.push b) s = .next (s.after
        { s.regs with
          type := (s.regs.type <<< 8) ||| b.setWidth 32, crc := crcUpdate s.regs.crc b
          tbad := if isLetter b = true then s.regs.tbad else true
          cnt := 0#32, ph := if s.regs.len = 0#32 then .crc else .dat } .ok false 0#32 [])) ∧
    (s.regs.cnt ≠ 3#32 →
      exec (.push b) s = .next (s.after
        { s.regs with
          type := (s.regs.type <<< 8) ||| b.setWidth 32, crc := crcUpdate s.regs.crc b
          tbad := if isLetter b = true then s.regs.tbad else true
          cnt := s.regs.cnt + 1#32 } .ok false 0#32 []))

/-- R142: PUSH in phase DAT. -/
def Obligations.ParseDataByte : Prop :=
  ∀ (s : State) (b : Byte), s.regs.fault = false → s.regs.mode = .parse → s.regs.ph = .dat →
    (s.regs.cnt + 1#32 = s.regs.len →
      exec (.push b) s = .next (s.after
        { s.regs with crc := crcUpdate s.regs.crc b, ph := .crc, cnt := 0#32 } .ok false 0#32 [])) ∧
    (s.regs.cnt + 1#32 ≠ s.regs.len →
      exec (.push b) s = .next (s.after
        { s.regs with crc := crcUpdate s.regs.crc b, cnt := s.regs.cnt + 1#32 } .ok false 0#32 []))

/-- R143: PUSH in phase CRC, the first three bytes. -/
def Obligations.ParseCrcByte : Prop :=
  ∀ (s : State) (b : Byte), s.regs.fault = false → s.regs.mode = .parse → s.regs.ph = .crc → s.regs.cnt.toNat < 3 →
    exec (.push b) s = .next (s.after
      { s.regs with rcrc := (s.regs.rcrc <<< 8) ||| b.setWidth 32, cnt := s.regs.cnt + 1#32 } .ok false 0#32 [])

/-- R145 with R205: PUSH in phase CRC, the fourth byte; the type test comes before the CRC test.
It is the only PUSH step that ends a parse. -/
def Obligations.ParseCompletion : Prop :=
  ∀ (s : State) (b : Byte), s.regs.fault = false → s.regs.mode = .parse →
    (¬ (s.regs.ph = .crc ∧ s.regs.cnt = 3#32) → ∀ t, exec (.push b) s = .next t →
      t.regs.mode = .parse ∧ t.responses = s.responses ++ [⟨.ok, false, 0#32⟩]) ∧
    (s.regs.ph = .crc → s.regs.cnt = 3#32 →
    let r := (s.regs.rcrc <<< 8) ||| b.setWidth 32
    (s.regs.tbad = true →
      exec (.push b) s = .next (s.after
        { s.regs with rcrc := r, mode := .idle, ph := .len, cnt := 0#32, err := .invalidTypeBytes,
                      valid := false, tvalid := false, cvalid := false } .invalidTypeBytes true 0#32 [])) ∧
    (s.regs.tbad = false → r ≠ s.regs.crc ^^^ 0xFFFFFFFF#32 →
      exec (.push b) s = .next (s.after
        { s.regs with rcrc := r, mode := .idle, ph := .len, cnt := 0#32, err := .crcMismatch,
                      valid := false, tvalid := false, cvalid := false } .crcMismatch true 0#32 [])) ∧
    (s.regs.tbad = false → r = s.regs.crc ^^^ 0xFFFFFFFF#32 →
      exec (.push b) s = .next (s.after
        { s.regs with rcrc := r, mode := .idle, ph := .len, cnt := 0#32, valid := true, tvalid := true, cvalid := true }
        .ok true 0#32 [])))

/-- R146 with R205: END in mode PARSE reports InsufficientData in any phase and at any count. -/
def Obligations.ParseEnd : Prop :=
  (∀ opr : Word, decode (0x21#8 ++ opr) = .ok .endInput ↔ opr = 0#32) ∧ ∀ s : State, s.regs.fault = false → s.regs.mode = .parse →
    exec .endInput s = .next (s.after
      { s.regs with mode := .idle, ph := .len, cnt := 0#32, err := .insufficientData, valid := false, tvalid := false, cvalid := false }
      .insufficientData true 0#32 [])

/-- R148: during a parse no view of the chunk can be read, only STATUS, and no byte is emitted;
its three flags rise together in the step that completes it, and stay 0 in every other. -/
def Obligations.ParseHidesTheChunk : Prop :=
  ∀ s : State, BlockInv s.regs → s.regs.mode = .parse →
    (∀ n : Word, n ≠ 0#32 → exec (.rd n) s = .next s.afterIllegal) ∧
    exec (.rd 0#32) s = .next (s.after s.regs .ok false (statusWord s.regs) []) ∧
    ∀ (i : Instr) (t : State), exec i s = .next t → t.out = s.out ∧ ∃ p, t.responses = s.responses ++ [p] ∧
      ((t.regs.valid = false ∧ t.regs.tvalid = false ∧ t.regs.cvalid = false ∧ ¬ (p.done = true ∧ p.st = .ok)) ∨
        (t.regs.valid = true ∧ t.regs.tvalid = true ∧ t.regs.cvalid = true ∧ p = ⟨.ok, true, 0#32⟩))

/-- R147, which the spec marks as derived: the host procedure `PARSE s` gives what `chunk_parse(s)` gives, from every unfaulted idle state,
with the error priority of R210 and the byte counts of each case. -/
def Obligations.ParseRealisesChunkParse : Prop :=
  ∀ (s : State) (m : List Byte), s.regs.fault = false → s.regs.mode = .idle →
    ∃ t k, hostParseChunk m s = .next (t, k) ∧ t.commands = s.commands ∧ t.out = s.out ∧ t.regs.mode = .idle ∧
      match chunkParse m with
      | .ok c =>
        k = 12 + c.data.length ∧
        t.responses = s.responses ++ List.replicate k ⟨.ok, false, 0#32⟩ ++ [⟨.ok, true, 0#32⟩] ∧
        t.regs.valid = true ∧ t.regs.tvalid = true ∧ t.regs.cvalid = true ∧ t.regs.len.toNat = c.data.length ∧
        be32 t.regs.type = c.type ∧ t.regs.crc ^^^ 0xFFFFFFFF#32 = c.crc ∧ c.crc = crc32 (c.type ++ c.data)
      | .error e =>
        t.regs.valid = false ∧ t.regs.tvalid = false ∧ t.regs.cvalid = false ∧ t.regs.err = e ∧
        (e = .insufficientData → k = m.length ∧
          t.responses = s.responses ++ List.replicate (k + 1) ⟨.ok, false, 0#32⟩ ++ [⟨.insufficientData, true, 0#32⟩]) ∧
        (e ≠ .insufficientData → k = 12 + (unbe32 (m.take 4)).toNat ∧
          t.responses = s.responses ++ List.replicate k ⟨.ok, false, 0#32⟩ ++ [⟨e, true, 0#32⟩])

/-- R135: what `chunk_parse` answers, and which error when several conditions hold. -/
def Obligations.ParseErrorPriority : Prop :=
  ∀ m : List Byte,
    let n := (unbe32 (m.take 4)).toNat
    let letters := isWellFormedType ((m.drop 4).take 4) = true
    let sum := crc32 ((m.drop 4).take (4 + n))
    (chunkParse m = .error .insufficientData ↔ m.length < 4 ∨ m.length < 12 + n) ∧
    (chunkParse m = .error .invalidTypeBytes ↔ 12 + n ≤ m.length ∧ ¬ letters) ∧
    (chunkParse m = .error .crcMismatch ↔ 12 + n ≤ m.length ∧ letters ∧ sum ≠ unbe32 ((m.drop (8 + n)).take 4)) ∧
    (∀ c, chunkParse m = .ok c ↔ 12 + n ≤ m.length ∧ letters ∧ sum = unbe32 ((m.drop (8 + n)).take 4) ∧
      c = ⟨(m.drop 4).take 4, (m.drop 8).take n, unbe32 ((m.drop (8 + n)).take 4)⟩)

/-- R136: a parse uses the first `12 + n` bytes only. -/
def Obligations.ParseUsesOnlyTheChunk : Prop :=
  ∀ m : List Byte, 4 ≤ m.length → 12 + (unbe32 (m.take 4)).toNat ≤ m.length →
    chunkParse m = chunkParse (m.take (12 + (unbe32 (m.take 4)).toNat))

/-- R128 and R150, which the spec marks as derived: parsing a serialized chunk gives the chunk back, whatever bytes follow it. -/
def Obligations.SerializedChunkParsesBack : Prop :=
  ∀ t d more : List Byte, isWellFormedType t = true → d.length ≤ Config.maxDataLength →
    chunkParse (chunkSerialize t d ++ more) = .ok ⟨t, d, crc32 (t ++ d)⟩

/-- R151: one flipped bit strictly within the data or CRC field is always a `CrcMismatch`. -/
def Obligations.SingleBitFlipIsDetected : Prop :=
  ∀ (t d : List Byte) (j k : Nat), isWellFormedType t = true → d.length ≤ Config.maxDataLength →
    8 ≤ j → j < 12 + d.length → k < 8 →
    chunkParse ((chunkSerialize t d).modify j (fun b => b ^^^ (1#8 <<< k))) = .error .crcMismatch

/-! ### Rules about every command -/

/-- The reset registers meet the invariant. -/
def Obligations.ResetMeetsTheInvariant : Prop := BlockInv State.reset.regs

/-- Every step from a state that meets the invariant, reachable or not, gives a state that meets it. -/
def Obligations.EveryStepKeepsTheInvariant : Prop :=
  ∀ s t : State, BlockInv s.regs → step s = .next t → BlockInv t.regs

/-- The invariants (a) to (h) hold in every state reachable from reset by any command sequence (10_state.md section 4, marked as derived by the spec). -/
def Obligations.ReachableStatesMeetTheStatedInvariants : Prop :=
  ∀ (n : Nat) (cs : List CmdWord), ∃ t, run n { State.reset with commands := cs } = .next t ∧ StatedInvariants t.regs

/-- R170, which the spec marks as derived: every command moves (`MODE`, `PH`) and answers by one row of the transition table. -/
def Obligations.OnlyTabulatedTransitions : Prop :=
  ∀ (i : Instr) (s : State), i.WellFormed → BlockInv s.regs →
    ∃ t p, exec i s = .next t ∧ t.responses = s.responses ++ [p] ∧
      TransitionRow s.regs i t.regs.mode t.regs.ph p.done p.st

/-- R66: one response a step, whatever the word, in one of the listed combinations; `done` exactly at the end of an operation;
`rdata` holds the value read by an accepted RD and is 0 otherwise. -/
def Obligations.ResponseCombinations : Prop :=
  ∀ (s : State) (w : CmdWord) (rest : List CmdWord), s.commands = w :: rest →
    ∃ t p, step s = .next t ∧ t.responses = s.responses ++ [p] ∧
      ((p.st = .ok) ∨ (p.done = true ∧ p.st ∈ [Status.invalidTypeBytes, .insufficientData, .crcMismatch]) ∨
        (p.st = .illegalCommand ∧ p.done = false)) ∧
      (p.rdata ≠ 0#32 → ∃ n : Word, w = 0x30#8 ++ n ∧ p.st = .ok) ∧
      (∀ n : Word, w = 0x30#8 ++ n → p.done = false ∧ (p.st = .ok → ∃ v, viewOf n = some v ∧ readView v s.regs = some p.rdata)) ∧
      (p.done = true ↔
        (s.regs.mode ≠ .idle ∧ t.regs.mode = .idle ∧ w ≠ 0x0100000000#40) ∨ (w = 0x1300000000#40 ∧ p.st = .ok))

/-- R42 and R48: which steps append to OUT, and how many bytes. -/
def Obligations.OnlyBuildsEmit : Prop :=
  ∀ (i : Instr) (s t : State), exec i s = .next t → ∃ p e, t.responses = s.responses ++ [p] ∧ t.out = s.out ++ e ∧
    ((e = [] ∧ ¬ (∃ n, i = .blds n ∧ p.st = .ok) ∧ ¬ (∃ b, i = .push b ∧ s.regs.mode = .build ∧ p.st = .ok)) ∨
      (∃ n, i = .blds n ∧ p.st = .ok ∧ e.length = if n = 0#32 then 12 else 8) ∨
      (∃ b, i = .push b ∧ s.regs.mode = .build ∧ p.st = .ok ∧ e.head? = some b ∧ e.length = if p.done = true then 5 else 1))

/-- R19: the life of `ERR`. -/
def Obligations.ErrorCodeLife : Prop :=
  ∀ (i : Instr) (s t : State), exec i s = .next t → ∃ p, t.responses = s.responses ++ [p] ∧
    t.regs.err =
      (if p.st ≠ .ok then p.st
       else if i = .clr ∨ i = .crcs ∨ i = .typs ∨ i = .prss ∨ (∃ n, i = .blds n) then .ok else s.regs.err) ∧
    p.st ∈ [Status.ok, .invalidTypeBytes, .insufficientData, .crcMismatch, .illegalCommand]

/-- R20 to R22: which commands set and clear the three validity flags, and that they rise only in a completing step. -/
def Obligations.ValidityFlagWriters : Prop :=
  ∀ (i : Instr) (s t : State), exec i s = .next t → ∃ p, t.responses = s.responses ++ [p] ∧
    (s.regs.valid = false → t.regs.valid = true → p = ⟨.ok, true, 0#32⟩ ∧
      (i = .blds 0#32 ∨ ∃ b, i = .push b ∧ (s.regs.mode = .build ∨ s.regs.mode = .parse))) ∧
    (s.regs.tvalid = false → t.regs.tvalid = true → p = ⟨.ok, true, 0#32⟩ ∧
      ((i = .endInput ∧ s.regs.mode = .type) ∨ ∃ b, i = .push b ∧ s.regs.mode = .parse)) ∧
    (s.regs.cvalid = false → t.regs.cvalid = true → p = ⟨.ok, true, 0#32⟩ ∧
      (i = .blds 0#32 ∨ (i = .endInput ∧ s.regs.mode = .crc) ∨
        ∃ b, i = .push b ∧ (s.regs.mode = .build ∨ s.regs.mode = .parse))) ∧
    (s.regs.valid = true → t.regs.valid = false →
      i = .clr ∨ (p.st = .ok ∧ (i = .crcs ∨ i = .typs ∨ i = .prss ∨ ∃ n, i = .blds n)) ∨ (s.regs.mode = .parse ∧ p.done = true)) ∧
    (s.regs.tvalid = true → t.regs.tvalid = false →
      i = .clr ∨ (p.st = .ok ∧ (i = .typs ∨ i = .prss)) ∨
        ((s.regs.mode = .parse ∨ s.regs.mode = .type) ∧ p.done = true ∧ p.st ≠ .ok)) ∧
    (s.regs.cvalid = true → t.regs.cvalid = false →
      i = .clr ∨ (p.st = .ok ∧ (i = .crcs ∨ i = .prss ∨ ∃ n, i = .blds n)) ∨ (s.regs.mode = .parse ∧ p.done = true ∧ p.st ≠ .ok))

/-- R11 to R15 and R23: which commands write the data registers, the count and `TBAD`, and what each writes; everything else leaves them.
A count goes back to 0 with the field it counts, and then `MODE` or `PH` moves on. -/
def Obligations.DataRegisterWriters : Prop :=
  ∀ (i : Instr) (s t : State), exec i s = .next t →
    (t.regs.crc ≠ s.regs.crc → ((i = .clr ∨ i = .crcs ∨ i = .prss) ∧ t.regs.crc = 0xFFFFFFFF#32) ∨
      (∃ n, i = .blds n ∧ t.regs.crc = crcOver 0xFFFFFFFF#32 (be32 s.regs.type)) ∨
      ∃ b, i = .push b ∧ (s.regs.mode = .crc ∨ s.regs.mode = .build ∨
        (s.regs.mode = .parse ∧ (s.regs.ph = .typ ∨ s.regs.ph = .dat))) ∧ t.regs.crc = crcUpdate s.regs.crc b) ∧
    (t.regs.len ≠ s.regs.len → ((i = .clr ∨ i = .prss) ∧ t.regs.len = 0#32) ∨ i = .blds t.regs.len ∨
      ∃ b, i = .push b ∧ s.regs.mode = .parse ∧ s.regs.ph = .len ∧ t.regs.len = shiftIn s.regs.len b) ∧
    (t.regs.type ≠ s.regs.type → ((i = .clr ∨ i = .typs ∨ i = .prss) ∧ t.regs.type = 0#32) ∨
      ∃ b, i = .push b ∧ (s.regs.mode = .type ∨ (s.regs.mode = .parse ∧ s.regs.ph = .typ)) ∧ t.regs.type = shiftIn s.regs.type b) ∧
    (t.regs.rcrc ≠ s.regs.rcrc → ((i = .clr ∨ i = .prss) ∧ t.regs.rcrc = 0#32) ∨
      ∃ b, i = .push b ∧ s.regs.mode = .parse ∧ s.regs.ph = .crc ∧ t.regs.rcrc = shiftIn s.regs.rcrc b) ∧
    (t.regs.cnt ≠ s.regs.cnt →
      ((i = .clr ∨ i = .typs ∨ i = .prss ∨ (∃ n, i = .blds n) ∨ (i = .endInput ∧ (s.regs.mode = .type ∨ s.regs.mode = .parse))) ∧
        t.regs.cnt = 0#32) ∨
      ∃ b, i = .push b ∧
        (((s.regs.mode = .type ∨ s.regs.mode = .parse ∨ s.regs.mode = .build) ∧ t.regs.cnt = s.regs.cnt + 1#32 ∧
            t.regs.mode = s.regs.mode ∧ t.regs.ph = s.regs.ph) ∨
          ((s.regs.mode = .parse ∨ s.regs.mode = .build) ∧ t.regs.cnt = 0#32 ∧
            (t.regs.mode ≠ s.regs.mode ∨ t.regs.ph ≠ s.regs.ph)))) ∧
    (t.regs.tbad ≠ s.regs.tbad → ((i = .clr ∨ i = .typs ∨ i = .prss) ∧ t.regs.tbad = false) ∨
      ∃ b, i = .push b ∧ (s.regs.mode = .type ∨ (s.regs.mode = .parse ∧ s.regs.ph = .typ)) ∧ t.regs.tbad = true)

/-- R239, which the spec marks as derived: which results survive which start. -/
def Obligations.ResultsThatSurviveAStart : Prop :=
  ∀ (i : Instr) (s t : State), exec i s = .next t → t.regs.fault = false →
    (i = .crcs → t.regs.valid = false ∧ t.regs.tvalid = s.regs.tvalid ∧ t.regs.type = s.regs.type ∧ t.regs.cvalid = false) ∧
    (i = .typs → t.regs.valid = false ∧ t.regs.tvalid = false ∧ t.regs.cvalid = s.regs.cvalid ∧ t.regs.crc = s.regs.crc) ∧
    (i = .prss → t.regs.valid = false ∧ t.regs.tvalid = false ∧ t.regs.cvalid = false) ∧
    (∀ n, i = .blds n → n ≠ 0#32 → t.regs.valid = false ∧ t.regs.tvalid = true ∧ s.regs.tvalid = true ∧
      t.regs.type = s.regs.type ∧ t.regs.cvalid = false)

/-! ### The host side -/

/-- R188: the bytes of a Png, and that a Png of whole chunks is parsed back from them.
A chunk of the spec has at most 2^32 - 1 data bytes (R120); the length field the first clause writes out for longer data is the model's choice (log entry 8). -/
def Obligations.PngRoundTrip : Prop :=
  ∀ p : Png,
    pngBytes p = [0x89#8, 0x50#8, 0x4E#8, 0x47#8, 0x0D#8, 0x0A#8, 0x1A#8, 0x0A#8] ++
      (p.chunks.map (fun c => be32 (BitVec.ofNat 32 c.data.length) ++ c.type ++ c.data ++ be32 c.crc)).flatten ∧
    ((∀ c ∈ p.chunks, isWellFormedType c.type = true ∧ c.data.length ≤ Config.maxDataLength ∧ c.crc = crc32 (c.type ++ c.data)) →
      pngFromBytes (pngBytes p) = .ok p)

/-- R185: removal takes the first match in stored order and leaves the others in theirs; without a match it fails. -/
def Obligations.RemovalTakesTheFirstMatch : Prop :=
  (∀ (before after : List Chunk) (c : Chunk), (∀ x ∈ before, x.type ≠ c.type) →
    removeFirstChunk ⟨before ++ c :: after⟩ c.type = .ok (c, ⟨before ++ after⟩)) ∧
  ∀ (p : Png) (t : List Byte), (∀ x ∈ p.chunks, x.type ≠ t) → removeFirstChunk p t = .error .chunkNotFound
end

