-- ==== Sys2Proof/Laws/Bytes.lean ====
section
/-! SUPPORT. Bytes shifted into words, and the big-endian forms of a word, both ways (00_scope.md section 5.1). -/

namespace Sys2Proof.Machine

theorem be32_length (w : Word) : (be32 w).length = 4 := rfl

/-- The newest byte of a shifted word is the one that entered. -/
theorem shiftIn_low (w : Word) (b : Byte) : (shiftIn w b).extractLsb' 0 8 = b := by
  apply BitVec.eq_of_getLsbD_eq
  intro i hi
  interval_cases i <;> simp [shiftIn]

/-- The older bytes move up by one place. -/
theorem shiftIn_next (w : Word) (b : Byte) (k : Nat) (hk : k < 3) :
    (shiftIn w b).extractLsb' (8 * (k + 1)) 8 = w.extractLsb' (8 * k) 8 := by
  apply BitVec.eq_of_getLsbD_eq
  intro i hi
  interval_cases k <;> interval_cases i <;> simp [shiftIn]

theorem unbe32_be32 (w : Word) : unbe32 (be32 w) = w := by
  apply BitVec.eq_of_getLsbD_eq
  intro i hi
  simp only [unbe32, be32, List.foldl, shiftIn]
  interval_cases i <;> simp

theorem be32_unbe32 (a b c d : Byte) : be32 (unbe32 [a, b, c, d]) = [a, b, c, d] := by
  simp only [be32, unbe32, List.foldl, shiftIn, List.cons.injEq, and_true]
  refine ⟨?_, ?_, ?_, ?_⟩ <;>
    (apply BitVec.eq_of_getLsbD_eq
     intro i hi
     interval_cases i <;> simp)

/-- The bytes of a packed type, first wire byte first (R13). -/
theorem typeByte_unbe32 (a b c d : Byte) :
    typeByte (unbe32 [a, b, c, d]) 0 = a ∧ typeByte (unbe32 [a, b, c, d]) 1 = b ∧
      typeByte (unbe32 [a, b, c, d]) 2 = c ∧ typeByte (unbe32 [a, b, c, d]) 3 = d := by
  have h := be32_unbe32 a b c d
  simp only [be32, List.cons.injEq, and_true] at h
  exact h

/-- One byte counted on a 32-bit count below a 32-bit bound does not wrap. -/
theorem toNat_add_one {c l : Word} (h : c.toNat < l.toNat) : (c + 1#32).toNat = c.toNat + 1 := by
  have := l.isLt
  simp [BitVec.toNat_add]
  omega

/-- The views by number: the five of R49, and the reserved ones. -/
theorem viewOf_cases (n : Word) :
    (n = 0#32 ∧ viewOf n = some .status) ∨ (n = 1#32 ∧ viewOf n = some .len) ∨ (n = 2#32 ∧ viewOf n = some .type) ∨
      (n = 3#32 ∧ viewOf n = some .crcOut) ∨ (n = 4#32 ∧ viewOf n = some .props) ∨ (4 < n.toNat ∧ viewOf n = none) := by
  by_cases h0 : n = 0#32
  · subst h0; exact .inl ⟨rfl, rfl⟩
  by_cases h1 : n = 1#32
  · subst h1; exact .inr (.inl ⟨rfl, rfl⟩)
  by_cases h2 : n = 2#32
  · subst h2; exact .inr (.inr (.inl ⟨rfl, rfl⟩))
  by_cases h3 : n = 3#32
  · subst h3; exact .inr (.inr (.inr (.inl ⟨rfl, rfl⟩)))
  by_cases h4 : n = 4#32
  · subst h4; exact .inr (.inr (.inr (.inr (.inl ⟨rfl, rfl⟩))))
  refine .inr (.inr (.inr (.inr (.inr ⟨?_, by simp [viewOf, h0, h1, h2, h3, h4]⟩))))
  by_contra hc
  have hn : n = BitVec.ofNat 32 n.toNat := by simp
  have hlt : n.toNat < 5 := by omega
  generalize n.toNat = k at hn hlt
  interval_cases k <;> contradiction

end Sys2Proof.Machine
end

