-- ==== Sys2Proof/Laws/Crc.lean ====
section
/-! SUPPORT. The CRC remainder: its shifts are linear and injective, so is an update in each argument, and a byte sequence may be cut anywhere. -/

namespace Sys2Proof.Machine

theorem crcShift_xor (x y : Word) : crcShift (x ^^^ y) = crcShift x ^^^ crcShift y := by
  have hs : (x ^^^ y) >>> 1 = (x >>> 1) ^^^ (y >>> 1) := BitVec.ushiftRight_xor_distrib x y 1
  simp only [crcShift, BitVec.getLsbD_xor, hs]
  cases x.getLsbD 0 <;> cases y.getLsbD 0 <;> simp <;>
    (apply BitVec.eq_of_getLsbD_eq
     intro i hi
     simp [Bool.xor_left_comm, Bool.xor_comm])

theorem crcShifts_xor (n : Nat) (x y : Word) : crcShifts n (x ^^^ y) = crcShifts n x ^^^ crcShifts n y := by
  induction n generalizing x y with
  | zero => rfl
  | succ n ih => simp only [crcShifts, crcShift_xor, ih]

theorem crcShifts_add (m n : Nat) (x : Word) : crcShifts (m + n) x = crcShifts n (crcShifts m x) := by
  induction m generalizing x with
  | zero => simp [crcShifts]
  | succ m ih =>
    rw [Nat.add_right_comm]
    simp only [crcShifts]
    exact ih _

/-- While the bits that fall out are 0 an iteration is a plain shift. -/
theorem crcShifts_of_low_zero (n : Nat) (x : Word) (h : ∀ i < n, x.getLsbD i = false) : crcShifts n x = x >>> n := by
  induction n generalizing x with
  | zero => simp [crcShifts]
  | succ n ih =>
    have hx : crcShift x = x >>> 1 := by rw [crcShift, if_neg (by rw [h 0 (by omega)]; simp)]
    rw [crcShifts, hx, ih]
    · rw [← BitVec.shiftRight_add, Nat.add_comm]
    · intro i hi
      simp [BitVec.getLsbD_ushiftRight, h (1 + i) (by omega)]

/-- Bit 31 of the polynomial is set, so no shift of a nonzero remainder is 0. -/
theorem crcShift_eq_zero {x : Word} (hx : crcShift x = 0#32) : x = 0#32 := by
  rw [crcShift] at hx
  split at hx
  · have := congrArg (fun w => w.getLsbD 31) hx
    simp [crcPolynomial] at this
  · rename_i hb
    apply BitVec.eq_of_getLsbD_eq
    intro i hi
    cases i with
    | zero => simpa using hb
    | succ i =>
      have := congrArg (fun w => w.getLsbD i) hx
      simpa [Nat.add_comm] using this

theorem crcShift_injective {x y : Word} (h : crcShift x = crcShift y) : x = y := by
  have h0 : x ^^^ y = 0#32 := crcShift_eq_zero (by rw [crcShift_xor, h]; simp)
  have h1 : x ^^^ y ^^^ y = 0#32 ^^^ y := by rw [h0]
  simpa [BitVec.xor_assoc] using h1

theorem crcShifts_injective (n : Nat) {x y : Word} (h : crcShifts n x = crcShifts n y) : x = y := by
  induction n generalizing x y with
  | zero => exact h
  | succ n ih => exact crcShift_injective (ih h)

theorem crcUpdate_injective_left {x y : Word} (b : Byte) (h : crcUpdate x b = crcUpdate y b) : x = y := by
  have h1 := crcShifts_injective _ h
  have h2 : x ^^^ b.setWidth 32 ^^^ b.setWidth 32 = y ^^^ b.setWidth 32 ^^^ b.setWidth 32 := by rw [h1]
  simpa [BitVec.xor_assoc] using h2

theorem crcUpdate_injective_right (x : Word) {a b : Byte} (h : crcUpdate x a = crcUpdate x b) : a = b := by
  have h1 := crcShifts_injective _ h
  have h2 : x ^^^ (x ^^^ a.setWidth 32) = x ^^^ (x ^^^ b.setWidth 32) := by rw [h1]
  rw [← BitVec.xor_assoc, ← BitVec.xor_assoc, BitVec.xor_self, BitVec.zero_xor, BitVec.zero_xor] at h2
  simpa using congrArg (fun w => w.setWidth 8) h2

/-- A message may be fed in pieces (R84). -/
theorem crcOver_append (c : Word) (s t : List Byte) : crcOver c (s ++ t) = crcOver (crcOver c s) t := by
  simp [crcOver]

theorem crcOver_injective (s : List Byte) {x y : Word} (h : crcOver x s = crcOver y s) : x = y := by
  induction s generalizing x y with
  | nil => exact h
  | cons b s ih => exact crcUpdate_injective_left b (ih h)

theorem crcFinish_crcFinish (x : Word) : crcFinish (crcFinish x) = x := by
  simp [crcFinish]

end Sys2Proof.Machine
end

