-- ==== Sys2Proof/Laws/Decode.lean ====
section
/-! SUPPORT. The fields of an encoded command, and the opcode map both ways. -/

namespace Sys2Proof

theorem opcField_append (c : BitVec 8) (o : Word) : opcField (c ++ o) = c := by
  apply BitVec.eq_of_getLsbD_eq
  intro i hi
  simp only [opcField, BitVec.getLsbD_extractLsb', BitVec.getLsbD_append]
  simp [hi]

theorem oprField_append (c : BitVec 8) (o : Word) : oprField (c ++ o) = o := by
  apply BitVec.eq_of_getLsbD_eq
  intro i hi
  simp only [oprField, BitVec.getLsbD_extractLsb', BitVec.getLsbD_append]
  simp [hi]

/-- A word is its two fields (R60). -/
theorem fields_append (w : CmdWord) : opcField w ++ oprField w = w := by
  apply BitVec.eq_of_getLsbD_eq
  intro i hi
  simp only [opcField, oprField, BitVec.getLsbD_extractLsb', BitVec.getLsbD_append]
  by_cases h : i < 32
  · simp [h]
  · have : 32 + (i - 32) = i := by omega
    have h' : i - 32 < 8 := by omega
    simp [h, h', this]

theorem ofCode_code (op : Opcode) : Opcode.ofCode op.code = some op := by
  cases op <;> rfl

theorem code_of_ofCode {c : BitVec 8} {op : Opcode} (h : Opcode.ofCode c = some op) : op.code = c := by
  unfold Opcode.ofCode at h
  repeat' split at h
  all_goals first | (cases h; subst_vars; rfl) | cases h

/-- A word with a defined opcode is decoded by the form of that opcode. -/
theorem decode_append (op : Opcode) (opr : Word) : decode (op.code ++ opr) = decodeOperand op opr := by
  rw [decode, opcField_append, oprField_append, ofCode_code]

end Sys2Proof
end

