-- ==== Sys2Proof/Laws/State.lean ====
section
/-! SUPPORT. One lemma per field of the state per update, so that no later proof unfolds a record update. -/

namespace Sys2Proof.Machine

@[simp] theorem commit_regs (s : State) (e : Effect) : (s.commit e).regs = e.regs := rfl
@[simp] theorem commit_commands (s : State) (e : Effect) : (s.commit e).commands = s.commands := rfl
@[simp] theorem commit_responses (s : State) (e : Effect) : (s.commit e).responses = s.responses ++ [e.resp] := rfl
@[simp] theorem commit_out (s : State) (e : Effect) : (s.commit e).out = s.out ++ e.emitted := rfl

@[simp] theorem emit_regs (b : List Byte) (e : Effect) : (emit b e).regs = e.regs := rfl
@[simp] theorem emit_resp (b : List Byte) (e : Effect) : (emit b e).resp = e.resp := rfl
@[simp] theorem emit_emitted (b : List Byte) (e : Effect) : (emit b e).emitted = b := rfl

@[simp] theorem proceed_regs (r : Regs) : (proceed r).regs = r := rfl
@[simp] theorem proceed_resp (r : Regs) : (proceed r).resp = ⟨.ok, false, 0#32⟩ := rfl
@[simp] theorem proceed_emitted (r : Regs) : (proceed r).emitted = [] := rfl

@[simp] theorem complete_regs (r : Regs) : (complete r).regs = r := rfl
@[simp] theorem complete_resp (r : Regs) : (complete r).resp = ⟨.ok, true, 0#32⟩ := rfl
@[simp] theorem complete_emitted (r : Regs) : (complete r).emitted = [] := rfl

@[simp] theorem answer_regs (v : Word) (r : Regs) : (answer v r).regs = r := rfl
@[simp] theorem answer_resp (v : Word) (r : Regs) : (answer v r).resp = ⟨.ok, false, v⟩ := rfl
@[simp] theorem answer_emitted (v : Word) (r : Regs) : (answer v r).emitted = [] := rfl

@[simp] theorem illegal_regs (r : Regs) : (illegal r).regs = { r with fault := true, err := .illegalCommand } := rfl
@[simp] theorem illegal_resp (r : Regs) : (illegal r).resp = ⟨.illegalCommand, false, 0#32⟩ := rfl
@[simp] theorem illegal_emitted (r : Regs) : (illegal r).emitted = [] := rfl

@[simp] theorem terminate_regs (c : Status) (r : Regs) : (terminate c r).regs =
    { r with mode := .idle, ph := .len, cnt := 0#32, err := c, valid := false, tvalid := false, cvalid := false } := rfl
@[simp] theorem terminate_resp (c : Status) (r : Regs) : (terminate c r).resp = ⟨c, true, 0#32⟩ := rfl
@[simp] theorem terminate_emitted (c : Status) (r : Regs) : (terminate c r).emitted = [] := rfl

end Sys2Proof.Machine
end

