-- ==== Sys2Proof/Laws/Exec.lean ====
section
/-! SUPPORT. What a step can do, said once: every command commits the effect the block computes from the registers, and nothing stops. -/

namespace Sys2Proof.Machine

/-- A performed effect answers a next state, which is the committed one. -/
theorem perform_next_iff (f : Regs → Effect) (s t : State) : perform f s = .next t ↔ t = s.commit (f s.regs) := by
  unfold perform
  constructor
  · intro h; cases h; rfl
  · rintro rfl; rfl

theorem exec_eq_commit (i : Instr) (s : State) : exec i s = .next (s.commit (effectOf i s.regs)) := by
  cases i <;> rfl

theorem exec_next_iff (i : Instr) (s t : State) : exec i s = .next t ↔ t = s.commit (effectOf i s.regs) := by
  rw [exec_eq_commit]
  constructor
  · intro h; cases h; rfl
  · rintro rfl; rfl

/-- The port hands over the next word and keeps the others. -/
theorem fetch_of_cons {s : State} {w : CmdWord} {rest : List CmdWord} (h : s.commands = w :: rest) :
    fetch s = some (w, { s with commands := rest }) := by
  unfold fetch; rw [h]

theorem fetch_of_nil {s : State} (h : s.commands = []) : fetch s = none := by
  unfold fetch; rw [h]

theorem step_of_nil {s : State} (h : s.commands = []) : step s = .next s := by
  unfold step; rw [fetch_of_nil h]

/-- A step with a word at the port is the block's own step on it, committed. -/
theorem step_of_cons {s : State} {w : CmdWord} {rest : List CmdWord} (h : s.commands = w :: rest) :
    step s = .next (State.commit { s with commands := rest } (blockStep w s.regs)) := by
  unfold step blockStep
  rw [fetch_of_cons h]
  cases hd : decode w with
  | ok i => simp only [hd, exec_eq_commit]
  | error e => simp only [hd]; rfl

theorem unlessFaulted_of_faulted (f : Regs → Effect) {r : Regs} (h : r.fault = true) : unlessFaulted f r = illegal r := by
  unfold unlessFaulted; rw [if_pos h]

theorem unlessFaulted_of_clear (f : Regs → Effect) {r : Regs} (h : r.fault = false) : unlessFaulted f r = f r := by
  unfold unlessFaulted; rw [if_neg (by simp [h])]

theorem inIdle_of_idle (f : Regs → Effect) {r : Regs} (h : r.mode = .idle) : inIdle f r = f r := by
  unfold inIdle; rw [if_pos h]

theorem inIdle_of_busy (f : Regs → Effect) {r : Regs} (h : r.mode ≠ .idle) : inIdle f r = illegal r := by
  unfold inIdle; rw [if_neg h]

theorem withType_of_loaded (f : Regs → Effect) {r : Regs} (h : r.tvalid = true) : withType f r = f r := by
  unfold withType; rw [if_pos h]

theorem withType_of_none (f : Regs → Effect) {r : Regs} (h : r.tvalid = false) : withType f r = illegal r := by
  unfold withType; rw [if_neg (by simp [h])]

end Sys2Proof.Machine
end

