-- ==== Sys2Proof/Laws/Frame.lean ====
section
/-! SUPPORT. The four fields of a chunk frame, cut out of the bytes they were laid into (43_chunk_build.md R120, 44_chunk_parse.md R135). -/

namespace Sys2Proof.Machine

/-- The fields of a frame with any bytes in its CRC field and any bytes after it. -/
theorem frame_fields (t d crcField more : List Byte) (ht : t.length = 4) (hd : d.length ≤ Config.maxDataLength) (hc : crcField.length = 4) :
    let s := be32 (BitVec.ofNat 32 d.length) ++ t ++ d ++ crcField ++ more
    s.length = 12 + d.length + more.length ∧ (unbe32 (s.take 4)).toNat = d.length ∧ (s.drop 4).take 4 = t ∧
      (s.drop 8).take d.length = d ∧ (s.drop (8 + d.length)).take 4 = crcField := by
  intro s
  have hl : (be32 (BitVec.ofNat 32 d.length)).length = 4 := rfl
  have hdl : (BitVec.ofNat 32 d.length).toNat = d.length := by
    simp [Config.maxDataLength] at hd
    simp
    omega
  refine ⟨?_, ?_, ?_, ?_, ?_⟩
  · simp [s, hl, ht, hc]
    omega
  · have h : s.take 4 = be32 (BitVec.ofNat 32 d.length) := by simp [s, hl]
    rw [h, unbe32_be32, hdl]
  · have h : s = be32 (BitVec.ofNat 32 d.length) ++ (t ++ (d ++ (crcField ++ more))) := by simp [s]
    rw [h, List.drop_left' hl, List.take_left' ht]
  · have h : s = (be32 (BitVec.ofNat 32 d.length) ++ t) ++ (d ++ (crcField ++ more)) := by simp [s]
    rw [h, List.drop_left' (by simp [hl, ht]), List.take_left' rfl]
  · have h : s = (be32 (BitVec.ofNat 32 d.length) ++ t ++ d) ++ (crcField ++ more) := by simp [s]
    rw [h, List.drop_left' (by simp [hl, ht]; omega), List.take_left' hc]

/-- A frame with the CRC field `r` parses by its type test, then by its CRC test. -/
theorem chunkParse_frame (t d more : List Byte) (r : Word) (ht : t.length = 4) (hd : d.length ≤ Config.maxDataLength) :
    chunkParse (be32 (BitVec.ofNat 32 d.length) ++ t ++ d ++ be32 r ++ more) =
      if t.all isLetter = false then .error .invalidTypeBytes
      else if crc32 (t ++ d) ≠ r then .error .crcMismatch
      else .ok ⟨t, d, r⟩ := by
  obtain ⟨h1, h2, h3, h4, h5⟩ := frame_fields t d (be32 r) more ht hd rfl
  unfold chunkParse
  rw [if_neg (by omega)]
  simp only [h2]
  rw [if_neg (by omega), h3, h4, h5, unbe32_be32]

end Sys2Proof.Machine
end

