-- ==== Sys2Proof/Laws/Modes.lean ====
section
/-! SUPPORT. What a command does by the mode it meets, and all that the shared tests of a command can lead to. -/

namespace Sys2Proof.Machine

/-- The fault gate: refused under `FAULT`, and the command itself elsewhere. -/
theorem unlessFaulted_cases (f : Regs → Effect) (r : Regs) :
    (r.fault = true ∧ unlessFaulted f r = illegal r) ∨ (r.fault = false ∧ unlessFaulted f r = f r) := by
  cases h : r.fault
  · exact .inr ⟨rfl, unlessFaulted_of_clear f h⟩
  · exact .inl ⟨rfl, unlessFaulted_of_faulted f h⟩

/-- The test of a start command: IDLE, or illegal. -/
theorem inIdle_cases (f : Regs → Effect) (r : Regs) :
    (r.mode = .idle ∧ inIdle f r = f r) ∨ (r.mode ≠ .idle ∧ inIdle f r = illegal r) := by
  by_cases h : r.mode = .idle
  · exact .inl ⟨h, inIdle_of_idle f h⟩
  · exact .inr ⟨h, inIdle_of_busy f h⟩

/-- The test for a loaded type, or illegal. -/
theorem withType_cases (f : Regs → Effect) (r : Regs) :
    (r.tvalid = true ∧ withType f r = f r) ∨ (r.tvalid = false ∧ withType f r = illegal r) := by
  cases h : r.tvalid
  · exact .inr ⟨rfl, withType_of_none f h⟩
  · exact .inl ⟨rfl, withType_of_loaded f h⟩

theorem push_in_crc (b : Byte) {r : Regs} (hf : r.fault = false) (hm : r.mode = .crc) : pushEffect b r = pushCrc b r := by
  rw [pushEffect, unlessFaulted_of_clear _ hf, pushByMode, hm]

theorem push_in_type (b : Byte) {r : Regs} (hf : r.fault = false) (hm : r.mode = .type) : pushEffect b r = pushType b r := by
  rw [pushEffect, unlessFaulted_of_clear _ hf, pushByMode, hm]

theorem push_in_parse (b : Byte) {r : Regs} (hf : r.fault = false) (hm : r.mode = .parse) : pushEffect b r = pushParse b r := by
  rw [pushEffect, unlessFaulted_of_clear _ hf, pushByMode, hm]

theorem push_in_build (b : Byte) {r : Regs} (hf : r.fault = false) (hm : r.mode = .build) : pushEffect b r = pushBuild b r := by
  rw [pushEffect, unlessFaulted_of_clear _ hf, pushByMode, hm]

theorem end_in_crc {r : Regs} (hf : r.fault = false) (hm : r.mode = .crc) : endEffect r = endCrc r := by
  rw [endEffect, unlessFaulted_of_clear _ hf, endByMode, hm]

theorem end_in_type {r : Regs} (hf : r.fault = false) (hm : r.mode = .type) : endEffect r = endType r := by
  rw [endEffect, unlessFaulted_of_clear _ hf, endByMode, hm]

theorem end_in_parse {r : Regs} (hf : r.fault = false) (hm : r.mode = .parse) : endEffect r = endParse r := by
  rw [endEffect, unlessFaulted_of_clear _ hf, endByMode, hm]

/-- The three ways the fourth CRC byte ends a parse (R145). -/
theorem finishParse_cases (r : Regs) :
    (r.tbad = true ∧ finishParse r = terminate .invalidTypeBytes r) ∨
    (r.tbad = false ∧ r.rcrc ≠ crcFinish r.crc ∧ finishParse r = terminate .crcMismatch r) ∨
    (r.tbad = false ∧ r.rcrc = crcFinish r.crc ∧
      finishParse r = complete { r with mode := .idle, ph := .len, cnt := 0#32, valid := true, tvalid := true, cvalid := true }) := by
  unfold finishParse
  cases h : r.tbad
  · by_cases hc : r.rcrc = crcFinish r.crc
    · exact .inr (.inr ⟨rfl, hc, by simp [hc]⟩)
    · exact .inr (.inl ⟨rfl, hc, by simp [hc]⟩)
  · exact .inl ⟨rfl, by simp⟩

end Sys2Proof.Machine
end

