-- ==== Sys2Proof/Laws/PerInstr.lean ====
section
/-! SUPPORT. The encoding of each command, field by field: `cw[39:32]` is its opcode and `cw[31:0]` its operand (R60, R62). -/

namespace Sys2Proof.Laws.EncodedFields

/-- The two fields of the encoded word are the opcode's bits and the operand. -/
def Statement (i : Instr) : Prop := opcField (encode i) = i.opcode.code ∧ oprField (encode i) = i.operand

theorem nop : Statement .nop := ⟨opcField_append _ _, oprField_append _ _⟩
theorem clr : Statement .clr := ⟨opcField_append _ _, oprField_append _ _⟩
theorem crcs : Statement .crcs := ⟨opcField_append _ _, oprField_append _ _⟩
theorem typs : Statement .typs := ⟨opcField_append _ _, oprField_append _ _⟩
theorem prss : Statement .prss := ⟨opcField_append _ _, oprField_append _ _⟩
theorem blds (n : Word) : Statement (.blds n) := ⟨opcField_append _ _, oprField_append _ _⟩
theorem push (b : Byte) : Statement (.push b) := ⟨opcField_append _ _, oprField_append _ _⟩
theorem endInput : Statement .endInput := ⟨opcField_append _ _, oprField_append _ _⟩
theorem rd (r : Word) : Statement (.rd r) := ⟨opcField_append _ _, oprField_append _ _⟩

end Sys2Proof.Laws.EncodedFields
end

