-- ==== Sys2Proof/Laws/Run.lean ====
section
/-! SUPPORT. Runs, step by step. -/

namespace Sys2Proof.Machine

theorem run_zero (s : State) : run 0 s = .next s := rfl

/-- A run of any machine whose first step is known. -/
theorem core_run_of_step (M : Host.Core) (n : Nat) (s t : M.State) (h : M.step s = .next t) : M.run (n + 1) s = M.run n t := by
  simp only [Host.Core.run, h]

theorem run_of_step {s t : State} (n : Nat) (h : step s = .next t) : run (n + 1) s = run n t :=
  core_run_of_step Sys2Proof.core n s t h

/-- One more step on a pending command word. -/
theorem run_of_cons {s : State} {w : CmdWord} {rest : List CmdWord} (n : Nat) (h : s.commands = w :: rest) :
    run (n + 1) s = run n (State.commit { s with commands := rest } (blockStep w s.regs)) :=
  run_of_step n (step_of_cons h)

/-- With no command left a run changes nothing more. -/
theorem run_of_nil {s : State} (n : Nat) (h : s.commands = []) : run (n + 1) s = run n s :=
  run_of_step n (step_of_nil h)

@[simp] theorem blockRun_nil (r : Regs) : blockRun [] r = ⟨r, [], []⟩ := rfl

@[simp] theorem blockRun_cons (w : CmdWord) (ws : List CmdWord) (r : Regs) : blockRun (w :: ws) r =
    ⟨(blockRun ws (blockStep w r).regs).regs, (blockStep w r).resp :: (blockRun ws (blockStep w r).regs).responses,
      (blockStep w r).emitted ++ (blockRun ws (blockStep w r).regs).out⟩ := rfl

/-- What the host finds after issuing one command: the block's step on its word, committed. -/
theorem issue_eq_commit (i : Instr) (s : State) : issue i s = .next (s.commit (blockStep (encode i) s.regs)) :=
  step_of_cons rfl

/-- Issuing a fixed sequence is the run over its words, put in front of what the host has pending. -/
theorem issueAll_eq_run (is : List Instr) (s : State) :
    issueAll is s = run is.length { s with commands := wordsOf is ++ s.commands } := by
  induction is generalizing s with
  | nil => rfl
  | cons i is ih =>
    rw [issueAll, issue_eq_commit]
    exact (ih _).trans
      (run_of_cons (s := { s with commands := wordsOf (i :: is) ++ s.commands }) (rest := wordsOf is ++ s.commands) is.length rfl).symm

end Sys2Proof.Machine
end

