-- ==== Sys2Proof/Machine/Assembler.lean ====
section
/-! DEFINITION. The text form of command sequences (30_encoding.md R68) and of the pseudo-instructions that are fixed sequences (R69).
Lines are lists of characters. The points the text of R68 leaves open are in log entry 9. -/

namespace Sys2Proof.Machine

/-- The mnemonics of R62, upper case. -/
def mnemonicOf : Opcode → List Char
  | .nop => ['N', 'O', 'P']
  | .clr => ['C', 'L', 'R']
  | .crcs => ['C', 'R', 'C', 'S']
  | .typs => ['T', 'Y', 'P', 'S']
  | .prss => ['P', 'R', 'S', 'S']
  | .blds => ['B', 'L', 'D', 'S']
  | .push => ['P', 'U', 'S', 'H']
  | .endInput => ['E', 'N', 'D']
  | .rd => ['R', 'D']

/-- The view names of 10_state.md section 5. -/
def viewName : View → List Char
  | .status => ['S', 'T', 'A', 'T', 'U', 'S']
  | .len => ['L', 'E', 'N']
  | .type => ['T', 'Y', 'P', 'E']
  | .crcOut => ['C', 'R', 'C', 'O', 'U', 'T']
  | .props => ['P', 'R', 'O', 'P', 'S']

/-- The register number of a view (R49). -/
def viewNumber : View → Word
  | .status => 0#32
  | .len => 1#32
  | .type => 2#32
  | .crcOut => 3#32
  | .props => 4#32

/-- One hexadecimal digit, upper case. -/
def hexDigit (n : Nat) : Char := if n < 10 then Char.ofNat (48 + n) else Char.ofNat (55 + n)

/-- The last `k` hexadecimal digits of `n`, most significant first. -/
def hexDigits : Nat → Nat → List Char
  | 0, _ => []
  | k + 1, n => hexDigits k (n / 16) ++ [hexDigit (n % 16)]

/-- The value of a digit in base 16, either case. -/
def digitValue (c : Char) : Option Nat :=
  if 48 ≤ c.toNat ∧ c.toNat ≤ 57 then some (c.toNat - 48)
  else if 65 ≤ c.toNat ∧ c.toNat ≤ 70 then some (c.toNat - 55)
  else if 97 ≤ c.toNat ∧ c.toNat ≤ 102 then some (c.toNat - 87)
  else none

/-- A numeral in a base, continued from `acc`. -/
def numeralFrom (base : Nat) : List Char → Nat → Option Nat
  | [], acc => some acc
  | c :: cs, acc =>
    match digitValue c with
    | some d => if d < base then numeralFrom base cs (acc * base + d) else none
    | none => none

/-- A nonempty numeral. -/
def numeral (base : Nat) (cs : List Char) : Option Nat := if cs = [] then none else numeralFrom base cs 0

/-- "A decimal or hexadecimal number" (R68); `0x`, in lower case, marks the hexadecimal one (log entry 9). -/
def number : List Char → Option Nat
  | '0' :: 'x' :: cs => numeral 16 cs
  | cs => numeral 10 cs

/-- A byte "written in hexadecimal" (R68), with or without `0x` (log entry 9). -/
def hexByte (cs : List Char) : Option Byte :=
  match (match cs with | '0' :: 'x' :: ds => numeral 16 ds | ds => numeral 16 ds) with
  | some n => if n < 256 then some (BitVec.ofNat 8 n) else none
  | none => none

/-- "One ASCII character" as its code (R68). -/
def asciiByte (c : Char) : Option Byte := if c.toNat < 128 then some (BitVec.ofNat 8 c.toNat) else none

/-- A blank between the parts of a line: a space or a tab (the model's choice, log entry 9). -/
def isBlank (c : Char) : Bool := c == ' ' || c == '\t'

/-- The text with its leading blanks dropped. -/
def skipBlanks (cs : List Char) : List Char := cs.dropWhile isBlank

/-- The next word of a line and what follows it; a semicolon ends a word. -/
def nextWord (cs : List Char) : List Char × List Char :=
  (cs.takeWhile (fun c => !isBlank c && c != ';'), cs.dropWhile (fun c => !isBlank c && c != ';'))

/-- "A `;` starts a comment to end of line" (R68): nothing but blanks and a comment is left. -/
def atEnd (cs : List Char) : Bool :=
  match skipBlanks cs with
  | [] => true
  | c :: _ => c == ';'

/-- The PUSH operand: a quoted character, whichever it is, or a byte in hexadecimal (R68, log entry 9). -/
def pushOperand (cs : List Char) : Option (Byte × List Char) :=
  match cs with
  | '\'' :: c :: '\'' :: rest => (asciiByte c).map (fun b => (b, rest))
  | _ => (hexByte (nextWord cs).1).map (fun b => (b, (nextWord cs).2))

/-- The bytes of a quoted string, and what follows the closing quote (R69).
There is no escape, so the next double quote always ends the string (the model's choice, log entry 9). -/
def quotedBytes : List Char → Option (List Byte × List Char)
  | [] => none
  | '"' :: rest => some ([], rest)
  | c :: cs =>
    match asciiByte c, quotedBytes cs with
    | some b, some (bs, rest) => some (b :: bs, rest)
    | _, _ => none

/-- A list of hexadecimal bytes, separated by blanks, up to the end of the line (R69, log entry 9); the fuel bounds the number of words. -/
def hexBytes : Nat → List Char → Option (List Byte)
  | 0, _ => none
  | fuel + 1, cs =>
    if atEnd cs then some []
    else
      match hexByte (nextWord (skipBlanks cs)).1, hexBytes fuel (nextWord (skipBlanks cs)).2 with
      | some b, some bs => some (b :: bs)
      | _, _ => none

/-- The operand of a pseudo-instruction: "a quoted ASCII string or a list of hexadecimal bytes" (R69).
The empty sequence is written as an empty quoted string or as no operand at all (the model's choice, log entry 9). -/
def byteSequence (cs : List Char) : Option (List Byte) :=
  match skipBlanks cs with
  | '"' :: rest =>
    match quotedBytes rest with
    | some (bs, tail) => if atEnd tail then some bs else none
    | none => none
  | rest => hexBytes (rest.length + 1) rest

/-- The RD operand: a view name or its number (R68).
The number is read in decimal, or with `0x` in hexadecimal, and one above 4 is refused (the model's choice, log entry 9). -/
def rdOperand (cs : List Char) : Option Word :=
  if cs = viewName .status then some 0#32
  else if cs = viewName .len then some 1#32
  else if cs = viewName .type then some 2#32
  else if cs = viewName .crcOut then some 3#32
  else if cs = viewName .props then some 4#32
  else
    match number cs with
    | some n => if n ≤ 4 then some (BitVec.ofNat 32 n) else none
    | none => none

/-- The command after a mnemonic, its operand in the form R68 gives it. -/
def operandText (m cs : List Char) : Option (List Instr) :=
  if m = mnemonicOf .nop then (if atEnd cs then some [.nop] else none)
  else if m = mnemonicOf .clr then (if atEnd cs then some [.clr] else none)
  else if m = mnemonicOf .crcs then (if atEnd cs then some [.crcs] else none)
  else if m = mnemonicOf .typs then (if atEnd cs then some [.typs] else none)
  else if m = mnemonicOf .prss then (if atEnd cs then some [.prss] else none)
  else if m = mnemonicOf .endInput then (if atEnd cs then some [.endInput] else none)
  else if m = mnemonicOf .blds then
    match number (nextWord (skipBlanks cs)).1 with
    | some n => if n < 2 ^ 32 ∧ atEnd (nextWord (skipBlanks cs)).2 then some [.blds (BitVec.ofNat 32 n)] else none
    | none => none
  else if m = mnemonicOf .push then
    match pushOperand (skipBlanks cs) with
    | some (b, rest) => if atEnd rest then some [.push b] else none
    | none => none
  else if m = mnemonicOf .rd then
    match rdOperand (nextWord (skipBlanks cs)).1 with
    | some r => if atEnd (nextWord (skipBlanks cs)).2 then some [.rd r] else none
    | none => none
  else if m = ['P', 'U', 'S', 'H', 'S'] then (byteSequence cs).map pushes
  else if m = ['C', 'R', 'C', '3', '2'] then (byteSequence cs).map crcProgram
  else if m = ['L', 'D', 'T', 'Y', 'P', 'E'] then (byteSequence cs).map ldType
  else none

/-- One line of text as command words (R68, R69); a blank or comment line gives none, a line of no form is refused. -/
def assembleLine (line : List Char) : Option (List CmdWord) :=
  if atEnd line then some []
  else (operandText (nextWord (skipBlanks line)).1 (nextWord (skipBlanks line)).2).map wordsOf

/-- The operand part of a disassembled command. -/
def operandChars : Instr → List Char
  | .nop => []
  | .clr => []
  | .crcs => []
  | .typs => []
  | .prss => []
  | .blds n => [' ', '0', 'x'] ++ hexDigits 8 n.toNat
  | .push b => [' ', '0', 'x'] ++ hexDigits 2 b.toNat
  | .endInput => []
  | .rd r =>
    match viewOf r with
    | some v => ' ' :: viewName v
    | none => [' ', '0', 'x'] ++ hexDigits 8 r.toNat

/-- Disassembly (R68): a word that is no command prints `.word 0x` and its ten digits. -/
def disassemble (cw : CmdWord) : List Char :=
  match decode cw with
  | .ok i => mnemonicOf i.opcode ++ operandChars i
  | .error _ => ['.', 'w', 'o', 'r', 'd', ' ', '0', 'x'] ++ hexDigits 10 cw.toNat

end Sys2Proof.Machine
end

