-- ==== Sys2Proof/Tests/Slice0.lean ====
section
/-! SUPPORT. Tests of single steps and of the pure functions, their expected values taken from spec/95_test_vectors.md and the rules,
and for every statement with hypotheses a witness that meets them, clause by clause. -/

namespace Sys2Proof.Tests

open Sys2Proof Sys2Proof.Machine

/-! ### Helpers -/

/-- A block with the registers `r` and one word at its port. -/
def facing (r : Regs) (w : CmdWord) : State := { regs := r, commands := [w], responses := [], out := [] }

/-- A block with the registers `r` and nothing at its port. -/
def holding (r : Regs) : State := { regs := r, commands := [], responses := [], out := [] }

/-- The registers after one step on a word. -/
def regsAfter (r : Regs) (w : CmdWord) : Option Regs :=
  match step (facing r w) with
  | .next t => some t.regs
  | _ => none

/-- The response to one word, and the bytes it emits. -/
def answerTo (r : Regs) (w : CmdWord) : Option (List Response × List Byte) :=
  match step (facing r w) with
  | .next t => some (t.responses, t.out)
  | _ => none

/-- One response and its emission, as `answerTo` gives them. -/
def one (st : Status) (done : Bool) (rdata : Word) (e : List Byte) : Option (List Response × List Byte) := some ([⟨st, done, rdata⟩], e)

/-- The answer of an illegal command. -/
def ill : Option (List Response × List Byte) := one .illegalCommand false 0#32 []

/-- The STATUS view after one step on a word. -/
def statusAfter (r : Regs) (w : CmdWord) : Option Word := (regsAfter r w).map statusWord

/-- After CRCS (R85), with the remainder `c`. -/
def inCrc (c : Word) : Regs := { Regs.reset with mode := .crc, crc := c }

/-- In a type load (R102) with `n` bytes `t` taken. -/
def inType (n t : Word) (bad : Bool) : Regs := { Regs.reset with mode := .type, cnt := n, type := t, tbad := bad }

/-- Idle with the type `t` loaded (R108). -/
def loaded (t : Word) : Regs := { Regs.reset with type := t, tvalid := true }

/-- In a build (R122) of `n` bytes under `t`, `k` of them passed. -/
def inBuild (t n k c : Word) : Regs := { loaded t with mode := .build, ph := .dat, len := n, cnt := k, crc := c }

/-- In a parse (R137), in phase `p` with `k` bytes of it taken. -/
def inParse (p : Phase) (k n t c r : Word) (bad : Bool) : Regs :=
  { Regs.reset with mode := .parse, ph := p, cnt := k, len := n, type := t, crc := c, rcrc := r, tbad := bad }

/-- After a whole chunk (R20). -/
def chunkHeld (n t c : Word) : Regs := { Regs.reset with len := n, type := t, crc := c, valid := true, tvalid := true, cvalid := true }

/-- Under `FAULT`. -/
def faulted (r : Regs) : Regs := { r with fault := true, err := .illegalCommand }

/-- `ruSt` (95_test_vectors.md E1). -/
def ruSt : List Byte := [0x72#8, 0x75#8, 0x53#8, 0x74#8]

/-- `hello`. -/
def hello : List Byte := [0x68#8, 0x65#8, 0x6C#8, 0x6C#8, 0x6F#8]

/-- The chunk `ruSt`/`hello` of 17 bytes (95_test_vectors.md P2). -/
def helloChunk : List Byte :=
  [0x00#8, 0x00#8, 0x00#8, 0x05#8] ++ ruSt ++ hello ++ [0xAE#8, 0x50#8, 0x8D#8, 0x6F#8]

/-! ### Well-formedness and decoding -/

/-- The one check: a register number above 4 is refused (R49, R63). -/
theorem test_wellFormed : (Instr.rd 4#32).WellFormed ∧ ¬ (Instr.rd 5#32).WellFormed ∧ ¬ (Instr.rd 0xFFFFFFFF#32).WellFormed := by decide

/-- Words written out from R62 and the traces of 95_test_vectors.md P1 to P8, one or more per mnemonic. -/
theorem test_decode_words :
    decode 0x0000000000#40 = .ok .nop ∧ decode 0x0100000000#40 = .ok .clr ∧ decode 0x1000000000#40 = .ok .crcs ∧
    decode 0x1100000000#40 = .ok .typs ∧ decode 0x1200000000#40 = .ok .prss ∧ decode 0x2100000000#40 = .ok .endInput := by decide

theorem test_decode_operands :
    decode 0x1300000005#40 = .ok (.blds 5#32) ∧ decode 0x13FFFFFFFF#40 = .ok (.blds 0xFFFFFFFF#32) ∧
    decode 0x20000000FF#40 = .ok (.push 0xFF#8) ∧ decode 0x3000000003#40 = .ok (.rd 3#32) := by decide

/-- V45 to V50, and the words next to the legal ones. -/
theorem test_decode_refuses :
    decode 0x0200000000#40 = .error .undefinedOpcode ∧ decode 0xFF00000000#40 = .error .undefinedOpcode ∧
    decode 0x1400000000#40 = .error .undefinedOpcode ∧ decode 0x0000000001#40 = .error .operandNotZero ∧
    decode 0x2000000100#40 = .error .byteOperandTooLarge ∧ decode 0x3000000005#40 = .error .reservedRegister ∧
    decode 0x0100000001#40 = .error .operandNotZero := by decide

/-- The encoder writes the same words (R68). -/
theorem test_encode : encode (.push 0x72#8) = 0x2000000072#40 ∧ encode (.blds 6#32) = 0x1300000006#40 ∧ encode (.rd 4#32) = 0x3000000004#40 := by decide

/-- A table row's bits, and the step that runs them as the first command after reset. -/
theorem test_table_word :
    decodeTableWord 40 0x1300000005 = some (.blds 5#32) ∧ decodeTableWord 40 0x0200000000 = none ∧
    (State.reset.withFetchWord 40 0x1000000000).commands = [0x1000000000#40] := by decide

/-! ### The CRC function (41_crc32.md) -/

/-- V2, V4, V5: the remainder after one byte. -/
theorem test_crcUpdate :
    crcUpdate 0xFFFFFFFF#32 0x00#8 = 0x2DFD1072#32 ∧ crcUpdate 0xFFFFFFFF#32 0x61#8 = 0x174841BC#32 ∧
    crcUpdate 0xFFFFFFFF#32 0xFF#8 = 0x00FFFFFF#32 := by decide +kernel

/-- V3, the check value of the variant, and V1, V8, V9. -/
theorem test_crc32 :
    crc32 [0x31#8, 0x32#8, 0x33#8, 0x34#8, 0x35#8, 0x36#8, 0x37#8, 0x38#8, 0x39#8] = 0xCBF43926#32 ∧ crc32 [] = 0x00000000#32 ∧
    crc32 [0x49#8, 0x45#8, 0x4E#8, 0x44#8] = 0xAE426082#32 ∧ crc32 (ruSt ++ hello) = 0xAE508D6F#32 := by decide +kernel

/-- V11: entries of the table. -/
theorem test_crcTable : crcTable 1#8 = 0x77073096#32 ∧ crcTable 128#8 = 0xEDB88320#32 ∧ crcTable 255#8 = 0x2D02EF8D#32 := by decide +kernel

/-! ### Letters, views (42_chunk_type.md, 10_state.md) -/

/-- R100: the bounds of the two ranges, and the bytes beside them. -/
theorem test_letters :
    isLetter 0x41#8 = true ∧ isLetter 0x5A#8 = true ∧ isLetter 0x61#8 = true ∧ isLetter 0x7A#8 = true ∧
    isLetter 0x40#8 = false ∧ isLetter 0x5B#8 = false ∧ isLetter 0x60#8 = false ∧ isLetter 0x7B#8 = false ∧ isLetter 0xE1#8 = false := by decide

/-- E1, E2, V62, V36: PROPS of `ruSt`, `RuSt`, `IHDR`, `rust`. -/
theorem test_props :
    propsWord 0x72755374#32 = 0x3C#32 ∧ propsWord 0x52755374#32 = 0x3D#32 ∧ propsWord 0x49484452#32 = 0x2B#32 ∧
    propsWord 0x72757374#32 = 0x14#32 := by decide

/-- V65: STATUS words. -/
theorem test_status :
    statusWord (inCrc 0#32) = 0x00000001#32 ∧ statusWord (inType 0#32 0#32 false) = 0x00000002#32 ∧
    statusWord (inParse .crc 0#32 0#32 0#32 0#32 0#32 false) = 0x0000001B#32 ∧ statusWord (inBuild 0#32 1#32 0#32 0#32) = 0x00000054#32 ∧
    statusWord (chunkHeld 0#32 0#32 0#32) = 0x000000E0#32 ∧ statusWord (faulted Regs.reset) = 0x00008100#32 := by decide

/-! ### Single steps -/

/-- V61: a NOP inside a parse changes nothing. -/
theorem test_nop : regsAfter (inParse .len 1#32 0#32 0#32 0xFFFFFFFF#32 0#32 false) 0x0000000000#40 =
    some (inParse .len 1#32 0#32 0#32 0xFFFFFFFF#32 0#32 false) := by decide

/-- V57: a NOP under `FAULT`. -/
theorem test_nop_faulted : answerTo (faulted Regs.reset) 0x0000000000#40 = ill ∧
    statusAfter (faulted Regs.reset) 0x0000000000#40 = some 0x00008100#32 := by decide

/-- V60: CLR under `FAULT`. -/
theorem test_clr : regsAfter (faulted (chunkHeld 5#32 0x72755374#32 7#32)) 0x0100000000#40 = some Regs.reset ∧
    answerTo (faulted Regs.reset) 0x0100000000#40 = one .ok false 0#32 [] := by decide

/-- V50: a CLR with an operand is illegal, not a CLR. -/
theorem test_clr_operand : answerTo Regs.reset 0x0100000001#40 = ill := by decide

/-- V62: CRCS keeps the type and drops the finished CRC. -/
theorem test_crcs : statusAfter { loaded 0x49484452#32 with cvalid := true } 0x1000000000#40 = some 0x00000041#32 := by decide

/-- R65 item 4: CRCS while busy. -/
theorem test_crcs_busy : answerTo (inParse .len 0#32 0#32 0#32 0#32 0#32 false) 0x1000000000#40 = ill := by decide

/-- V53: TYPS while busy. -/
theorem test_typs_busy : answerTo (inCrc 0xFFFFFFFF#32) 0x1100000000#40 = ill ∧
    statusAfter (inCrc 0xFFFFFFFF#32) 0x1100000000#40 = some 0x00008101#32 := by decide

/-- R102, R239: TYPS keeps a finished CRC and drops the type. -/
theorem test_typs : statusAfter (chunkHeld 5#32 0x72755374#32 7#32) 0x1100000000#40 = some 0x00000082#32 := by decide

/-- V64: PRSS clears `ERR`. -/
theorem test_prss : statusAfter { Regs.reset with err := .insufficientData } 0x1200000000#40 = some 0x00000003#32 := by decide

/-- R137, R239: PRSS drops every result. -/
theorem test_prss_drops : regsAfter (chunkHeld 5#32 0x72755374#32 7#32) 0x1200000000#40 =
    some (inParse .len 0#32 0#32 0#32 0xFFFFFFFF#32 0#32 false) := by decide

/-- V37: BLDS 5 under `ruSt`. -/
theorem test_blds : answerTo (loaded 0x72755374#32) 0x1300000005#40 = one .ok false 0#32 ([0x00#8, 0x00#8, 0x00#8, 0x05#8] ++ ruSt) ∧
    regsAfter (loaded 0x72755374#32) 0x1300000005#40 = some (inBuild 0x72755374#32 5#32 0#32 0x8B4959FD#32) := by decide +kernel

/-- V38 and V42: BLDS 0 under `IEND`, and BLDS without a type. -/
theorem test_blds_empty : answerTo (loaded 0x49454E44#32) 0x1300000000#40 = one .ok true 0#32
      [0x00#8, 0x00#8, 0x00#8, 0x00#8, 0x49#8, 0x45#8, 0x4E#8, 0x44#8, 0xAE#8, 0x42#8, 0x60#8, 0x82#8] ∧
    answerTo Regs.reset 0x1300000001#40 = ill := by decide +kernel

/-- V37: the last PUSH of `hello` in a build. -/
theorem test_push_build : answerTo (inBuild 0x72755374#32 5#32 4#32 0x7172AA5E#32) 0x200000006F#40 =
      one .ok true 0#32 [0x6F#8, 0xAE#8, 0x50#8, 0x8D#8, 0x6F#8] ∧
    regsAfter (inBuild 0x72755374#32 5#32 4#32 0x7172AA5E#32) 0x200000006F#40 = some (chunkHeld 5#32 0x72755374#32 0x51AF7290#32) := by
  decide +kernel

/-- P3 and P4: the last PUSH of a parse, with the CRC right and wrong, and V32, with a bad type byte before. -/
theorem test_push_parse :
    answerTo (inParse .crc 3#32 5#32 0x72755374#32 0x51AF7290#32 0x00AE508D#32 false) 0x200000006F#40 = one .ok true 0#32 [] ∧
    answerTo (inParse .crc 3#32 5#32 0x72755374#32 0xE91315F5#32 0x00AE508D#32 false) 0x200000006F#40 = one .crcMismatch true 0#32 [] ∧
    answerTo (inParse .crc 3#32 0#32 0x49304E44#32 0x038735C6#32 0#32 true) 0x2000000000#40 = one .invalidTypeBytes true 0#32 [] := by
  decide +kernel

/-- V43: END in BUILD. -/
theorem test_end_build : answerTo (inBuild 0x72755374#32 2#32 1#32 0#32) 0x2100000000#40 = ill ∧
    statusAfter (inBuild 0x72755374#32 2#32 1#32 0#32) 0x2100000000#40 = some 0x00008154#32 := by decide

/-- V63, P5, P1: END in TYPE, PARSE and CRC. -/
theorem test_end : answerTo (inType 1#32 0x72#32 false) 0x2100000000#40 = one .invalidTypeBytes true 0#32 [] ∧
    answerTo (inParse .dat 2#32 5#32 0x72755374#32 0#32 0#32 false) 0x2100000000#40 = one .insufficientData true 0#32 [] ∧
    statusAfter (inCrc 0x340BC6D9#32) 0x2100000000#40 = some 0x00000080#32 := by decide

/-- P2: the reads after a build, and V56, V59. -/
theorem test_rd : answerTo (chunkHeld 5#32 0x72755374#32 0x51AF7290#32) 0x3000000003#40 = one .ok false 0xAE508D6F#32 [] ∧
    answerTo (chunkHeld 5#32 0x72755374#32 0x51AF7290#32) 0x3000000002#40 = one .ok false 0x72755374#32 [] ∧
    answerTo (inCrc 0xFFFFFFFF#32) 0x3000000003#40 = ill ∧
    answerTo (faulted { Regs.reset with cvalid := true }) 0x3000000003#40 = ill := by decide

/-- V58: RD STATUS under `FAULT`. -/
theorem test_rd_status : answerTo (faulted Regs.reset) 0x3000000000#40 = one .ok false 0x00008100#32 [] := by decide

/-! ### The functions of the chunk layout and the container, and the text form -/

/-- P2, P3: the layout and its parse. -/
theorem test_chunk : chunkSerialize ruSt hello = helloChunk ∧ chunkParse helloChunk = .ok ⟨ruSt, hello, 0xAE508D6F#32⟩ := by
  decide +kernel

/-- V30, V34, E5: a truncated chunk, a length one too large, a flipped data bit. -/
theorem test_chunk_errors : chunkParse (helloChunk.take 10) = .error .insufficientData ∧
    chunkParse [0x00#8, 0x00#8, 0x00#8, 0x01#8, 0x49#8, 0x45#8, 0x4E#8, 0x44#8, 0xAE#8, 0x42#8, 0x60#8, 0x82#8] = .error .insufficientData ∧
    chunkParse (helloChunk.set 9 0x64#8) = .error .crcMismatch := by decide +kernel

/-- The chunk a build procedure yields, or its error, and OUT after it. -/
def buildResult : HostBuild → Option (Except Status (List Byte) × List Byte)
  | .built c t => some (.ok c, t.out)
  | .failed e t => some (.error e, t.out)
  | .stopped => none

/-- P2 as one host procedure (R193), after bytes already in OUT; and a type of three letters (R189). -/
theorem test_new_chunk :
    buildResult (hostNewChunk ruSt hello { State.reset with out := [0x41#8] }) = some (.ok helloChunk, 0x41#8 :: helloChunk) ∧
    buildResult (hostNewChunk (ruSt.take 3) hello State.reset) = some (.error .invalidTypeBytes, []) := by
  decide +kernel

/-- E6, E7: a Png of 25 bytes, and the same with a wrong first byte. -/
theorem test_png : pngFromBytes (pngSignature ++ helloChunk) = .ok ⟨[⟨ruSt, hello, 0xAE508D6F#32⟩]⟩ ∧
    pngFromBytes ((pngSignature ++ helloChunk).set 0 0x88#8) = .error (.invalidSignature, 0) ∧
    pngFromBytes (pngSignature ++ helloChunk ++ [0x00#8]) = .error (.unexpectedTrailingBytes, 25) := by decide +kernel

/-- R68: lines of text, and words printed back. -/
theorem test_assembler :
    assembleLine ['B', 'L', 'D', 'S', ' ', '5'] = some [0x1300000005#40] ∧
    assembleLine [' ', 'P', 'U', 'S', 'H', ' ', '\'', 'r', '\'', ' ', ';', 'x'] = some [0x2000000072#40] ∧
    assembleLine ['R', 'D', ' ', 'C', 'R', 'C', 'O', 'U', 'T'] = some [0x3000000003#40] ∧
    assembleLine ['R', 'D', ' ', '5'] = none ∧
    disassemble 0xFF00000000#40 = ['.', 'w', 'o', 'r', 'd', ' ', '0', 'x', 'F', 'F', '0', '0', '0', '0', '0', '0', '0', '0'] := by
  decide +kernel

/-! ### Witnesses: for each statement, states and operands that meet its hypotheses, clause by clause, at the ends of the ranges

A statement whose clauses need no more than a value of each kind is witnessed by the clause values alone. -/

/-- The registers `r` in `holding r`, with the response to `i` and the registers after it, or nothing. -/
def execOn (i : Instr) (r : Regs) : Option (Regs × List Response × List Byte) :=
  match exec i (holding r) with
  | .next t => some (t.regs, t.responses, t.out)
  | _ => none

theorem inv_loaded : BlockInv (loaded 0x72755374#32) := by
  constructor <;> constructor <;> first | decide | (unfold LettersHeld; decide)

theorem inv_faulted : BlockInv (faulted (loaded 0x72755374#32)) := by
  constructor <;> constructor <;> first | decide | (unfold LettersHeld; decide)

theorem inv_chunkHeld : BlockInv (chunkHeld 5#32 0x72755374#32 0x51AF7290#32) := by
  constructor <;> constructor <;> first | decide | (unfold LettersHeld; decide)

theorem inv_inBuild : BlockInv (inBuild 0x72755374#32 5#32 4#32 0x7172AA5E#32) := by
  constructor <;> constructor <;> first | decide | (unfold LettersHeld; decide)

theorem inv_inParse : BlockInv (inParse .dat 4#32 5#32 0x72755374#32 0x7172AA5E#32 0#32 false) := by
  constructor <;> constructor <;> first | decide | (unfold LettersHeld; decide)

theorem inv_inType : BlockInv (inType 3#32 0x00727553#32 false) := by
  constructor <;> constructor <;> first | decide | (unfold LettersHeld; decide)

theorem witness_EncodedCommandDecodesBack : (Instr.rd 0#32).WellFormed ∧ (Instr.rd 4#32).WellFormed ∧
    (Instr.push 0xFF#8).WellFormed ∧ (Instr.blds 0xFFFFFFFF#32).WellFormed := by decide

theorem witness_DecodedWordIsTheEncoding : decode 0x3000000004#40 = .ok (.rd 4#32) ∧ decode 0x20000000FF#40 = .ok (.push 0xFF#8) := by decide

/-- Both sides of each clause at its boundary: accepted words, and the next ones, which are not. -/
theorem witness_DecodesExactlyLegalWords :
    (decode (0x20#8 ++ 0xFF#32) = .ok (.push 0xFF#8) ∧ (0xFF#32).toNat ≤ 0xFF) ∧ (¬ (0x100#32).toNat ≤ 0xFF) ∧
    (decode (0x30#8 ++ 4#32) = .ok (.rd 4#32)) ∧ (decode (0x00#8 ++ 0#32) = .ok .nop ∧ 0x00#8 ∈ zeroFormOpcodes) ∧
    decode (0x13#8 ++ 0#32) = .ok (.blds 0#32) ∧ decode (0x30#8 ++ 5#32) = .error .reservedRegister := by decide

theorem witness_ReservedOperandBitsAreRefused :
    (facing Regs.reset 0x2100000001#40).commands = (0x21#8 ++ 1#32) :: [] ∧ (0x21#8 ∈ zeroFormOpcodes ∧ 1#32 ≠ 0#32) ∧
    (facing Regs.reset 0x2000000100#40).commands = (0x20#8 ++ 0x100#32) :: [] ∧ (0x100#32).extractLsb' 8 24 ≠ 0#24 ∧
    (facing Regs.reset 0x3000000005#40).commands = (0x30#8 ++ 5#32) :: [] ∧ 4 < (5#32).toNat := by decide

theorem witness_StepRunsTheDecodedCommand :
    (facing Regs.reset 0x1300000005#40).commands = 0x1300000005#40 :: [] ∧ decode 0x1300000005#40 = .ok (.blds 5#32) := by decide

theorem witness_StepRefusesAWordThatIsNoCommand :
    (facing Regs.reset 0x3000000005#40).commands = 0x3000000005#40 :: [] ∧ decode 0x3000000005#40 = .error .reservedRegister := by decide

theorem witness_StepWithoutACommandWaits : (holding Regs.reset).commands = [] := rfl

theorem witness_EveryStepAnswersOnce : (facing Regs.reset 0x0000000000#40).commands = 0x0000000000#40 :: [] := rfl

/-- Every row of the list at its boundary, and a word on none of its rows. -/
theorem witness_IllegalExactlyWhenListed :
    (facing Regs.reset 0x0200000000#40).commands = (0x02#8 ++ 0#32) :: [] ∧
    ListedIllegal 0x02#8 0#32 Regs.reset ∧ ListedIllegal 0x00#8 1#32 Regs.reset ∧ ListedIllegal 0x20#8 0x100#32 Regs.reset ∧
    ListedIllegal 0x30#8 5#32 Regs.reset ∧ ListedIllegal 0x00#8 0#32 (faulted Regs.reset) ∧ ListedIllegal 0x11#8 0#32 (inCrc 0#32) ∧
    ListedIllegal 0x13#8 1#32 Regs.reset ∧ ListedIllegal 0x20#8 0x41#32 Regs.reset ∧ ListedIllegal 0x21#8 0#32 Regs.reset ∧
    ListedIllegal 0x30#8 1#32 Regs.reset ∧ ListedIllegal 0x30#8 2#32 Regs.reset ∧ ListedIllegal 0x30#8 3#32 Regs.reset ∧
    ¬ ListedIllegal 0x30#8 0#32 (faulted Regs.reset) := by
  refine ⟨rfl, .undefinedOpcode (by decide), .operandNotZero (by decide) (by decide), .operandNoByte rfl (by decide),
    .reservedRegister rfl (by decide), .faulted rfl (by decide) (by decide), .busy (by decide) (by decide), .noType rfl rfl,
    .pushInIdle rfl rfl, .endInIdleOrBuild rfl (.inl rfl), .noLength rfl rfl rfl, .noTypeToRead rfl (.inl rfl) rfl,
    .noCrcToRead rfl rfl rfl, ?_⟩
  intro h
  cases h <;> simp_all [definedOpcodes, zeroFormOpcodes, faulted]

theorem witness_FaultHoldsUntilClear :
    BlockInv (loaded 0x72755374#32) ∧ BlockInv (faulted (loaded 0x72755374#32)) ∧
    (∃ t, step (facing (loaded 0x72755374#32) 0x2000000041#40) = .next t ∧ (loaded 0x72755374#32).fault = false ∧ t.regs.fault = true) ∧
    (∃ t, step (facing (faulted (loaded 0x72755374#32)) 0x0100000000#40) = .next t ∧ t.regs.fault = false) ∧
    (∃ t, step (facing (faulted (loaded 0x72755374#32)) 0x3000000001#40) = .next t) ∧
    (∃ t, step (facing (faulted (loaded 0x72755374#32)) 0x3000000000#40) = .next t) :=
  ⟨inv_loaded, inv_faulted, ⟨_, rfl, rfl, rfl⟩, ⟨_, rfl, rfl⟩, ⟨_, rfl⟩, ⟨_, rfl⟩⟩

theorem witness_EqualRegistersBehaveAlike :
    let s := facing Regs.reset 0x1000000000#40
    let t : State := { s with out := [0x41#8] }
    s.regs = t.regs ∧ s.commands = t.commands ∧ s ≠ t ∧ s.commands = [0x1000000000#40] ++ [] := by decide

theorem witness_NopChangesNothing : (holding Regs.reset).regs.fault = false ∧ (holding (faulted Regs.reset)).regs.fault = true := by decide

/-- For the readable and the refused case of each view, and the first reserved number. -/
theorem witness_ReadAnswersOnlyReadableViews :
    (4#32).toNat ≤ 4 ∧ 4 < (5#32).toNat ∧
    (let r := chunkHeld 5#32 0x72755374#32 0#32; r.fault = false ∧ r.valid = true ∧ r.tvalid = true ∧ r.cvalid = true) ∧
    (faulted Regs.reset).fault = true ∧ (Regs.reset.valid = false ∧ Regs.reset.tvalid = false ∧ Regs.reset.cvalid = false) := by decide

theorem witness_NothingToPushOrEndInIdle : (holding Regs.reset).regs.mode = .idle := rfl

theorem witness_CrcStart : (holding Regs.reset).regs.fault = false ∧ (holding Regs.reset).regs.mode = .idle ∧
    (holding (faulted Regs.reset)).regs.fault = true ∧ (holding (inCrc 0#32)).regs.mode ≠ .idle := by decide

theorem witness_CrcPush : (holding (inCrc 0#32)).regs.fault = false ∧ (holding (inCrc 0#32)).regs.mode = .crc := by decide

theorem witness_CrcEnd : (holding (inCrc 0#32)).regs.fault = false ∧ (holding (inCrc 0#32)).regs.mode = .crc := by decide

theorem witness_StandaloneCrcReadsCrc32 :
    let s : State := { holding Regs.reset with commands := wordsOf (crcProgram [0x61#8]) ++ [0x3000000000#40] }
    s.regs.fault = false ∧ s.regs.mode = .idle ∧ s.commands = wordsOf (crcProgram [0x61#8]) ++ [0x3000000000#40] := by decide

theorem witness_TypeStart : (holding Regs.reset).regs.fault = false ∧ (holding Regs.reset).regs.mode = .idle ∧
    (holding (faulted Regs.reset)).regs.fault = true ∧ (holding (inParse .len 0#32 0#32 0#32 0#32 0#32 false)).regs.mode ≠ .idle := by decide

/-- The fourth byte and the fifth; the letter ranges at their ends are in `test_letters`. -/
theorem witness_TypePush : (inType 3#32 0x727553#32 false).fault = false ∧ (inType 3#32 0x727553#32 false).mode = .type ∧
    (inType 3#32 0#32 false).cnt ≠ 4#32 ∧ (inType 4#32 0#32 false).cnt = 4#32 ∧
    regsAfter (inType 3#32 0x727553#32 false) 0x2000000074#40 = some (inType 4#32 0x72755374#32 false) ∧
    regsAfter (inType 4#32 0x72755374#32 false) 0x2000000074#40 = some (inType 4#32 0x72755374#32 true) := by decide

theorem witness_TypeEnd : (inType 4#32 0x72755374#32 false).fault = false ∧ (inType 4#32 0x72755374#32 false).mode = .type ∧
    ((inType 4#32 0x72755374#32 false).cnt = 4#32 ∧ (inType 4#32 0x72755374#32 false).tbad = false) ∧
    (inType 3#32 0#32 false).cnt ≠ 4#32 ∧ (inType 4#32 0#32 true).tbad = true := by decide

/-- Four letters; three, five, and four with `0x30` among them. -/
theorem witness_TypeLoadAcceptsFourLetters :
    let s : State := { holding Regs.reset with commands := wordsOf (ldType ruSt) ++ [] }
    s.regs.fault = false ∧ s.regs.mode = .idle ∧ s.commands = wordsOf (ldType ruSt) ++ [] ∧
    (ruSt.length = 4 ∧ ∀ b ∈ ruSt, isLetter b = true) ∧ (ruSt.take 3).length ≠ 4 ∧ (ruSt ++ [0x61#8]).length ≠ 4 ∧
    ¬ (∀ b ∈ ruSt.set 1 0x30#8, isLetter b = true) := by decide

theorem witness_LoadedTypeIsNeverEdited : BlockInv (loaded 0x72755374#32) ∧ (loaded 0x72755374#32).tvalid = true ∧
    ∃ t, exec .typs (holding (loaded 0x72755374#32)) = .next t ∧ t.regs.type ≠ (loaded 0x72755374#32).type :=
  ⟨inv_loaded, rfl, _, rfl, by decide⟩

theorem witness_BuildStart :
    (loaded 0x72755374#32).fault = false ∧ (loaded 0x72755374#32).mode = .idle ∧ (loaded 0x72755374#32).tvalid = true ∧
    (0#32 : Word) = 0#32 ∧ (1#32 : Word) ≠ 0#32 ∧ (faulted Regs.reset).fault = true ∧ (inCrc 0#32).mode ≠ .idle ∧ Regs.reset.tvalid = false := by
  decide

/-- The last byte and the one before it, the longest length included. -/
theorem witness_BuildPush :
    (inBuild 0x72755374#32 5#32 4#32 0#32).fault = false ∧ (inBuild 0x72755374#32 5#32 4#32 0#32).mode = .build ∧
    (let r := inBuild 0x72755374#32 5#32 4#32 0#32; r.cnt + 1#32 = r.len) ∧
    (let r := inBuild 0x72755374#32 5#32 3#32 0#32; r.cnt + 1#32 ≠ r.len) ∧
    (let r := inBuild 0x72755374#32 0xFFFFFFFF#32 0xFFFFFFFE#32 0#32; r.cnt + 1#32 = r.len) := by decide

theorem witness_BuildCannotBeEnded : (holding (inBuild 0#32 1#32 0#32 0#32)).regs.mode = .build := rfl

/-- No data and one byte; a type of four letters, and one that is none. -/
theorem witness_BuildEmitsTheSerializedChunk :
    (State.reset.regs.fault = false ∧ State.reset.regs.mode = .idle) ∧ isWellFormedType ruSt = true ∧ isWellFormedType (ruSt.take 3) = false ∧
    (loaded 0x72755374#32).fault = false ∧ (loaded 0x72755374#32).mode = .idle ∧ (loaded 0x72755374#32).tvalid = true ∧
    ([] : List Byte).length ≤ Config.maxDataLength ∧ [0x00#8].length ≤ Config.maxDataLength ∧
    ({ holding (loaded 0x72755374#32) with commands := wordsOf (buildProgram [0x00#8]) ++ [] } : State).commands =
      wordsOf (buildProgram [0x00#8]) ++ [] := by decide

/-- A build of one chunk without data, one step. -/
theorem witness_AcceptedRunsEmitWholeChunks : BlockInv (loaded 0x72755374#32) ∧ (loaded 0x72755374#32).mode = .idle ∧
    0x0100000000#40 ∉ (facing (loaded 0x72755374#32) 0x1300000000#40).commands ∧
    ∃ t, run 1 (facing (loaded 0x72755374#32) 0x1300000000#40) = .next t ∧
      t.responses = [] ++ [⟨.ok, true, 0#32⟩] ∧ AllAccepted [⟨.ok, true, 0#32⟩] ∧ t.regs.mode = .idle ∧ t.out.length = 12 :=
  ⟨inv_loaded, rfl, by decide, _, rfl, by decide, by simp [AllAccepted], by decide, by decide⟩

theorem witness_ParseStart : (holding Regs.reset).regs.fault = false ∧ (holding Regs.reset).regs.mode = .idle ∧
    (holding (faulted Regs.reset)).regs.fault = true ∧ (holding (inCrc 0#32)).regs.mode ≠ .idle := by decide

theorem witness_ParseLengthByte :
    (let r := inParse .len 3#32 0#32 0#32 0#32 0#32 false; r.fault = false ∧ r.mode = .parse ∧ r.ph = .len ∧ r.cnt = 3#32) ∧
    (inParse .len 2#32 0#32 0#32 0#32 0#32 false).cnt ≠ 3#32 := by decide

theorem witness_ParseTypeByte :
    (let r := inParse .typ 3#32 5#32 0#32 0#32 0#32 false; r.fault = false ∧ r.mode = .parse ∧ r.ph = .typ ∧ r.cnt = 3#32 ∧ r.len ≠ 0#32) ∧
    (inParse .typ 3#32 0#32 0#32 0#32 0#32 false).len = 0#32 ∧ (inParse .typ 2#32 0#32 0#32 0#32 0#32 false).cnt ≠ 3#32 := by decide

theorem witness_ParseDataByte :
    (let r := inParse .dat 4#32 5#32 0#32 0#32 0#32 false; r.fault = false ∧ r.mode = .parse ∧ r.ph = .dat ∧ r.cnt + 1#32 = r.len) ∧
    (let r := inParse .dat 3#32 5#32 0#32 0#32 0#32 false; r.cnt + 1#32 ≠ r.len) := by decide

theorem witness_ParseCrcByte :
    (let r := inParse .crc 2#32 5#32 0#32 0#32 0#32 false; r.fault = false ∧ r.mode = .parse ∧ r.ph = .crc ∧ r.cnt.toNat < 3) := by decide

/-- The three ends of P3, P4 and V32. -/
theorem witness_ParseCompletion :
    (let r := inParse .crc 3#32 5#32 0#32 0x51AF7290#32 0x00AE508D#32 false
     r.fault = false ∧ r.mode = .parse ∧ r.ph = .crc ∧ r.cnt = 3#32 ∧ r.tbad = false ∧
      ((r.rcrc <<< 8) ||| (0x6F#8).setWidth 32) = r.crc ^^^ 0xFFFFFFFF#32 ∧ ((r.rcrc <<< 8) ||| (0x6E#8).setWidth 32) ≠ r.crc ^^^ 0xFFFFFFFF#32) ∧
    (inParse .crc 3#32 5#32 0#32 0#32 0#32 true).tbad = true ∧
    ¬ ((inParse .crc 2#32 5#32 0#32 0#32 0#32 true).ph = .crc ∧ (inParse .crc 2#32 5#32 0#32 0#32 0#32 true).cnt = 3#32) := by decide

theorem witness_ParseEnd : (holding (inParse .len 0#32 0#32 0#32 0#32 0#32 false)).regs.fault = false ∧
    (holding (inParse .len 0#32 0#32 0#32 0#32 0#32 false)).regs.mode = .parse := by decide

theorem witness_ParseHidesTheChunk : BlockInv (inParse .dat 4#32 5#32 0x72755374#32 0x7172AA5E#32 0#32 false) ∧
    (inParse .dat 4#32 5#32 0x72755374#32 0x7172AA5E#32 0#32 false).mode = .parse ∧ (1#32 : Word) ≠ 0#32 ∧
    ∃ t, exec (.push 0x6F#8) (holding (inParse .dat 4#32 5#32 0x72755374#32 0x7172AA5E#32 0#32 false)) = .next t :=
  ⟨inv_inParse, rfl, by decide, _, rfl⟩

/-- Each outcome of the host procedure. -/
theorem witness_ParseRealisesChunkParse : (holding Regs.reset).regs.fault = false ∧ (holding Regs.reset).regs.mode = .idle ∧
    chunkParse helloChunk = .ok ⟨ruSt, hello, 0xAE508D6F#32⟩ ∧ chunkParse (helloChunk.take 16) = .error .insufficientData ∧
    chunkParse (helloChunk.set 16 0x6E#8) = .error .crcMismatch ∧ chunkParse (helloChunk.set 5 0x30#8) = .error .invalidTypeBytes := by
  decide +kernel

/-- Each condition of the three, at the boundary of the lengths. -/
theorem witness_ParseErrorPriority : ([0x00#8, 0x00#8, 0x00#8] : List Byte).length < 4 ∧
    (let m := helloChunk.take 16; m.length < 12 + (unbe32 (m.take 4)).toNat) ∧
    (let m := helloChunk.set 5 0x30#8; 12 + (unbe32 (m.take 4)).toNat ≤ m.length ∧ ¬ isWellFormedType ((m.drop 4).take 4) = true) ∧
    (let m := helloChunk.set 16 0x6E#8; 12 + (unbe32 (m.take 4)).toNat ≤ m.length ∧ isWellFormedType ((m.drop 4).take 4) = true ∧
      crc32 ((m.drop 4).take 9) ≠ unbe32 ((m.drop 13).take 4)) := by decide +kernel

theorem witness_ParseUsesOnlyTheChunk :
    let m := helloChunk ++ [0x41#8]
    4 ≤ m.length ∧ 12 + (unbe32 (m.take 4)).toNat ≤ m.length := by decide

theorem witness_SerializedChunkParsesBack : isWellFormedType ruSt = true ∧ hello.length ≤ Config.maxDataLength ∧
    ([] : List Byte).length ≤ Config.maxDataLength := by decide

/-- The first data byte and the last CRC byte, the lowest and the highest bit. -/
theorem witness_SingleBitFlipIsDetected : isWellFormedType ruSt = true ∧ hello.length ≤ Config.maxDataLength ∧
    (8 ≤ 8 ∧ 8 < 12 + hello.length) ∧ (8 ≤ 16 ∧ 16 < 12 + hello.length) ∧ 0 < 8 ∧ 7 < 8 := by decide

theorem witness_EveryStepKeepsTheInvariant : BlockInv (inBuild 0x72755374#32 5#32 4#32 0x7172AA5E#32) ∧
    ∃ t, step (facing (inBuild 0x72755374#32 5#32 4#32 0x7172AA5E#32) 0x200000006F#40) = .next t :=
  ⟨inv_inBuild, _, rfl⟩

theorem witness_OnlyTabulatedTransitions : (Instr.rd 4#32).WellFormed ∧ BlockInv (inType 3#32 0x00727553#32 false) ∧
    BlockInv (faulted (loaded 0x72755374#32)) := ⟨by decide, inv_inType, inv_faulted⟩

/-- A read with a nonzero answer, a completing step, and the single-step build. -/
theorem witness_ResponseCombinations :
    (facing (loaded 0x72755374#32) 0x3000000002#40).commands = 0x3000000002#40 :: [] ∧
    answerTo (loaded 0x72755374#32) 0x3000000002#40 = one .ok false 0x72755374#32 [] ∧
    answerTo (inCrc 0#32) 0x2100000000#40 = one .ok true 0#32 [] ∧
    (answerTo (loaded 0x72755374#32) 0x1300000000#40).map (·.1) = some [⟨.ok, true, 0#32⟩] := by decide +kernel

/-- A step of each of the three cases. -/
theorem witness_OnlyBuildsEmit :
    (execOn .nop Regs.reset).map (·.2.2.length) = some 0 ∧ (execOn (.blds 0#32) (loaded 0x72755374#32)).map (·.2.2.length) = some 12 ∧
    (execOn (.blds 1#32) (loaded 0x72755374#32)).map (·.2.2.length) = some 8 ∧
    (execOn (.push 0#8) (inBuild 0#32 1#32 0#32 0#32)).map (·.2.2.length) = some 5 := by decide +kernel

theorem witness_ErrorCodeLife :
    (∃ t, exec .endInput (holding (inType 3#32 0#32 false)) = .next t ∧ t.regs.err = .invalidTypeBytes) ∧
    (∃ t, exec .prss (holding { Regs.reset with err := .crcMismatch }) = .next t ∧ t.regs.err = .ok) ∧
    (∃ t, exec .nop (holding { Regs.reset with err := .crcMismatch }) = .next t ∧ t.regs.err = .crcMismatch) :=
  ⟨⟨_, rfl, rfl⟩, ⟨_, rfl, rfl⟩, ⟨_, rfl, rfl⟩⟩

/-- Each flag rising and falling. -/
theorem witness_ValidityFlagWriters :
    ((inBuild 0#32 1#32 0#32 0#32).valid = false ∧ (execOn (.push 0#8) (inBuild 0#32 1#32 0#32 0#32)).map (·.1.valid) = some true) ∧
    ((inType 4#32 0#32 false).tvalid = false ∧ (execOn .endInput (inType 4#32 0#32 false)).map (·.1.tvalid) = some true) ∧
    ((inCrc 0#32).cvalid = false ∧ (execOn .endInput (inCrc 0#32)).map (·.1.cvalid) = some true) ∧
    ((chunkHeld 0#32 0#32 0#32).valid = true ∧ (execOn .crcs (chunkHeld 0#32 0#32 0#32)).map (·.1.valid) = some false) ∧
    ((chunkHeld 0#32 0#32 0#32).tvalid = true ∧ (execOn .typs (chunkHeld 0#32 0#32 0#32)).map (·.1.tvalid) = some false) ∧
    ((chunkHeld 0#32 0#32 0#32).cvalid = true ∧ (execOn .prss (chunkHeld 0#32 0#32 0#32)).map (·.1.cvalid) = some false) := by decide +kernel

/-- Each register changed by a PUSH, the count both ways, and one changed by each start. -/
theorem witness_DataRegisterWriters :
    (execOn (.push 0x72#8) (inType 0#32 0#32 false)).map (·.1.cnt) = some 1#32 ∧
    (execOn (.push 5#8) (inParse .len 3#32 0#32 0#32 0#32 0#32 false)).map (fun x => (x.1.cnt, x.1.ph)) = some (0#32, .typ) ∧
    (execOn (.blds 5#32) (loaded 0x72755374#32)).map (·.1.crc) = some 0x8B4959FD#32 ∧
    (execOn .prss (chunkHeld 5#32 0x72755374#32 0x51AF7290#32)).map (fun x => (x.1.crc, x.1.len, x.1.type)) = some (0xFFFFFFFF#32, 0#32, 0#32) ∧
    (execOn (.push 0x61#8) (inCrc 0xFFFFFFFF#32)).map (·.1.crc) = some 0x174841BC#32 ∧
    (execOn (.push 5#8) (inParse .len 3#32 0#32 0#32 0#32 0#32 false)).map (·.1.len) = some 5#32 ∧
    (execOn (.push 0x72#8) (inType 0#32 0#32 false)).map (·.1.type) = some 0x72#32 ∧
    (execOn (.push 0xAE#8) (inParse .crc 0#32 0#32 0#32 0#32 0#32 false)).map (·.1.rcrc) = some 0xAE#32 ∧
    (execOn (.push 0x30#8) (inType 0#32 0#32 false)).map (·.1.tbad) = some true := by decide +kernel

/-- Each of the four starts, accepted. -/
theorem witness_ResultsThatSurviveAStart :
    let r := chunkHeld 5#32 0x72755374#32 0x51AF7290#32
    (execOn .crcs r).map (·.1.fault) = some false ∧ (execOn .typs r).map (·.1.fault) = some false ∧
    (execOn .prss r).map (·.1.fault) = some false ∧ (execOn (.blds 1#32) r).map (·.1.fault) = some false ∧ (1#32 : Word) ≠ 0#32 := by
  decide +kernel

/-- A Png of one chunk. -/
theorem witness_PngRoundTrip :
    ∀ c ∈ (⟨[newChunk ruSt hello]⟩ : Png).chunks, isWellFormedType c.type = true ∧ c.data.length ≤ Config.maxDataLength ∧ c.crc = crc32 (c.type ++ c.data) := by
  intro c hc
  simp only [List.mem_singleton] at hc
  subst hc
  exact ⟨by decide, by decide, rfl⟩

/-- A match with another chunk before it, and a Png without a match. -/
theorem witness_RemovalTakesTheFirstMatch :
    (∀ x ∈ [newChunk [0x49#8, 0x45#8, 0x4E#8, 0x44#8] []], x.type ≠ (newChunk ruSt hello).type) ∧
    ∀ x ∈ (⟨[newChunk [0x49#8, 0x45#8, 0x4E#8, 0x44#8] []]⟩ : Png).chunks, x.type ≠ ruSt := by
  constructor <;>
    (intro x hx
     simp only [List.mem_singleton] at hx
     subst hx
     decide)

end Sys2Proof.Tests
end

section
/-! A decoded word is the encoding of its command (R60, R63, R68). -/

namespace Sys2Proof

theorem eq_of_decodeZero {i j : Instr} {opr : Word} (h : decodeZero j opr = .ok i) : i = j ∧ opr = 0#32 := by
  unfold decodeZero at h
  split at h
  · cases h; exact ⟨rfl, ‹_›⟩
  · cases h

/-- A byte operand is its low byte, zero-extended, once its other bits are tested to be 0. -/
theorem fields_of_decodeByte {i : Instr} {opr : Word} (h : decodeByte opr = .ok i) :
    i.opcode = .push ∧ i.operand = opr := by
  unfold decodeByte at h
  split at h
  case isTrue hz =>
    cases h
    have hhigh : opr.toNat / 256 % 16777216 = 0 := by
      simpa [BitVec.extractLsb'_toNat, Nat.shiftRight_eq_div_pow] using congrArg BitVec.toNat hz
    have hlow : opr.toNat % 256 = opr.toNat := by omega
    have hlt : opr.toNat < 4294967296 := opr.isLt
    exact ⟨rfl, BitVec.eq_of_toNat_eq (by simp [Instr.operand, hlow, hlt])⟩
  case isFalse => cases h

/-- The operand decoder keeps the opcode it was given and loses no operand bit (R63, R64). -/
theorem fields_of_decodeOperand {op : Opcode} {opr : Word} {i : Instr} (h : decodeOperand op opr = .ok i) :
    i.opcode = op ∧ i.operand = opr := by
  cases op
  case blds => cases h; exact ⟨rfl, rfl⟩
  case push => exact fields_of_decodeByte h
  case rd =>
    simp only [decodeOperand, decodeRegnum] at h
    split at h
    · cases h; exact ⟨rfl, rfl⟩
    · cases h
  all_goals
    obtain ⟨rfl, rfl⟩ := eq_of_decodeZero h
    exact ⟨rfl, rfl⟩

/-- A word has at most one meaning: it is the encoding of the command it decodes to. -/
theorem encode_of_decode {w : CmdWord} {i : Instr} (h : decode w = .ok i) : encode i = w := by
  unfold decode at h
  split at h
  case h_1 => cases h
  case h_2 op hop =>
    obtain ⟨rfl, hopr⟩ := fields_of_decodeOperand h
    rw [encode, hopr, code_of_ofCode hop, fields_append]

end Sys2Proof
end

section
/-! The fault gate (R160 step 1), and the life of `FAULT` and `ERR` over one step (R19, R24, R205, R207). -/

namespace Sys2Proof.Machine

/-- Of the views, only STATUS is read under `FAULT`. -/
theorem rdEffect_of_faulted {n : Word} {r : Regs} (hf : r.fault = true) (hn : n ≠ 0#32) : rdEffect n r = illegal r := by
  unfold rdEffect
  obtain ⟨h, -⟩ | ⟨-, h⟩ | ⟨-, h⟩ | ⟨-, h⟩ | ⟨-, h⟩ | ⟨-, h⟩ := viewOf_cases n
  · exact absurd h hn
  all_goals simp only [h, unlessFaulted_of_faulted _ hf]

/-- Under `FAULT` every command but CLR and RD STATUS is refused (R160 step 1, R166). -/
theorem effectOf_of_faulted {i : Instr} {r : Regs} (hf : r.fault = true) (hclr : i ≠ .clr) (hrd : i ≠ .rd 0#32) :
    effectOf i r = illegal r := by
  cases i with
  | clr => exact absurd rfl hclr
  | rd n => exact rdEffect_of_faulted hf (fun h => hrd (by rw [h]))
  | _ => exact unlessFaulted_of_faulted _ hf

/-- Under `FAULT` every word but those of CLR and RD STATUS is refused. -/
theorem blockStep_of_faulted {w : CmdWord} {r : Regs} (hf : r.fault = true) (hclr : w ≠ encode .clr)
    (hrd : w ≠ encode (.rd 0#32)) : blockStep w r = illegal r := by
  unfold blockStep
  split
  case h_1 i hd =>
    have hw := encode_of_decode hd
    exact effectOf_of_faulted hf (fun h => hclr (by rw [← hw, h])) (fun h => hrd (by rw [← hw, h]))
  case h_2 => rfl

theorem blockStep_clr (r : Regs) : blockStep (encode .clr) r = proceed Regs.reset := rfl

theorem blockStep_rd_status (r : Regs) : blockStep (encode (.rd 0#32)) r = answer (statusWord r) r := rfl

/-- What an effect on `r` does to `FAULT` and `ERR`, `code` being what an accepted command without a termination leaves in `ERR`. -/
inductive ErrorOutcome (code : Status) (r : Regs) (e : Effect) : Prop where
  /-- Refused (R207). -/
  | refused (h : e = illegal r)
  /-- An operation ended with an error (R108, R205). -/
  | ended (hst : e.resp.st ∈ [Status.invalidTypeBytes, .insufficientData, .crcMismatch]) (herr : e.regs.err = e.resp.st)
      (hf : e.regs.fault = true → r.fault = true)
  /-- Accepted, with no error. -/
  | accepted (hst : e.resp.st = .ok) (herr : e.regs.err = code) (hf : e.regs.fault = true → r.fault = true)

namespace ErrorOutcome

variable {code : Status} {f : Regs → Effect} {r : Regs} {e : Effect}

/-- The fault gate only adds a refusal. -/
theorem of_unlessFaulted (h : ErrorOutcome code r (f r)) : ErrorOutcome code r (unlessFaulted f r) := by
  obtain ⟨-, hu⟩ | ⟨-, hu⟩ := unlessFaulted_cases f r
  · exact .refused hu
  · rwa [hu]

/-- The test of a start command only adds a refusal. -/
theorem of_inIdle (h : ErrorOutcome code r (f r)) : ErrorOutcome code r (inIdle f r) := by
  obtain ⟨-, hu⟩ | ⟨-, hu⟩ := inIdle_cases f r
  · rwa [hu]
  · exact .refused hu

/-- The test for a loaded type only adds a refusal. -/
theorem of_withType (h : ErrorOutcome code r (f r)) : ErrorOutcome code r (withType f r) := by
  obtain ⟨-, hu⟩ | ⟨-, hu⟩ := withType_cases f r
  · rwa [hu]
  · exact .refused hu

theorem of_startBuild (n : Word) (r : Regs) : ErrorOutcome .ok r (startBuild n r) := by
  unfold startBuild
  split <;> exact .accepted rfl rfl id

/-- The fourth CRC byte ends a parse with an error or completes it, and a completion does not write `ERR`. -/
theorem of_finishParse (w : Word) (r : Regs) : ErrorOutcome r.err r (finishParse { r with rcrc := w }) := by
  obtain ⟨-, h⟩ | ⟨-, -, h⟩ | ⟨-, -, h⟩ := finishParse_cases { r with rcrc := w } <;> rw [h]
  · exact .ended (by simp) rfl id
  · exact .ended (by simp) rfl id
  · exact .accepted rfl rfl id

theorem of_pushParse (b : Byte) (r : Regs) : ErrorOutcome r.err r (pushParse b r) := by
  unfold pushParse
  cases r.ph
  case crc =>
    simp only [pushReceivedCrc]
    split
    · exact of_finishParse _ r
    · exact .accepted rfl rfl id
  all_goals
    simp only [pushLength, pushTypeField, pushData]
    split <;> exact .accepted rfl rfl id

theorem of_pushByMode (b : Byte) (r : Regs) : ErrorOutcome r.err r (pushByMode b r) := by
  unfold pushByMode
  cases r.mode with
  | idle => exact .refused rfl
  | crc => exact .accepted rfl rfl id
  | type => simp only [pushType]; split <;> exact .accepted rfl rfl id
  | parse => exact of_pushParse b r
  | build => simp only [pushBuild]; split <;> exact .accepted rfl rfl id

theorem of_endByMode (r : Regs) : ErrorOutcome r.err r (endByMode r) := by
  unfold endByMode
  cases r.mode with
  | idle => exact .refused rfl
  | crc => exact .accepted rfl rfl id
  | type =>
    simp only [endType]
    split
    · exact .accepted rfl rfl id
    · exact .ended (by simp) rfl id
  | parse => exact .ended (by simp [endParse]) rfl id
  | build => exact .refused rfl

theorem of_rdView (v : View) (r : Regs) : ErrorOutcome r.err r (rdView v r) := by
  unfold rdView
  split
  · exact .accepted rfl rfl id
  · exact .refused rfl

theorem of_rdEffect (n : Word) (r : Regs) : ErrorOutcome r.err r (rdEffect n r) := by
  unfold rdEffect
  split
  · exact of_rdView .status r
  · exact of_unlessFaulted (of_rdView _ r)
  · exact .refused rfl

/-- `FAULT` rises with the response of an illegal command and with no other (R24). -/
theorem fault_iff (h : ErrorOutcome code r e) (hr : r.fault = false) :
    e.regs.fault = true ↔ e.resp = ⟨.illegalCommand, false, 0#32⟩ := by
  have settled (hst : e.resp.st ≠ .illegalCommand) (hf : e.regs.fault = true → r.fault = true) :
      e.regs.fault = true ↔ e.resp = ⟨.illegalCommand, false, 0#32⟩ :=
    ⟨fun h => by simp [hf h] at hr, fun h => absurd (by rw [h]) hst⟩
  cases h with
  | refused h => simp [h]
  | ended hst herr hf => exact settled (fun h => by simp [h] at hst) hf
  | accepted hst herr hf => exact settled (by simp [hst]) hf

/-- `ERR` afterwards is the status of the response, or what an accepted command leaves there. -/
theorem err_eq (h : ErrorOutcome code r e) : e.regs.err = if e.resp.st ≠ .ok then e.resp.st else code := by
  cases h with
  | refused h => simp [h]
  | ended hst herr hf =>
    have : e.resp.st ≠ .ok := fun h => by simp [h] at hst
    rw [if_pos this, herr]
  | accepted hst herr hf => simp [hst, herr]

/-- The statuses a response of the block can have. -/
theorem status_mem (h : ErrorOutcome code r e) :
    e.resp.st ∈ [Status.ok, .invalidTypeBytes, .insufficientData, .crcMismatch, .illegalCommand] := by
  cases h with
  | refused h => simp [h]
  | ended hst => simp only [List.mem_cons, List.not_mem_nil, or_false] at hst ⊢; tauto
  | accepted hst => simp [hst]

end ErrorOutcome

/-- What an accepted command without a termination leaves in `ERR`: 0 after the starts and CLR, the old value after the others (R19). -/
def errIfAccepted (i : Instr) (r : Regs) : Status :=
  match i with
  | .clr | .crcs | .typs | .prss | .blds _ => .ok
  | .nop | .push _ | .endInput | .rd _ => r.err

theorem effectOf_errorOutcome (i : Instr) (r : Regs) : ErrorOutcome (errIfAccepted i r) r (effectOf i r) := by
  cases i with
  | nop => exact .of_unlessFaulted (.accepted rfl rfl id)
  | clr => exact .accepted rfl rfl (fun h => nomatch h)
  | crcs => exact .of_unlessFaulted (.of_inIdle (.accepted rfl rfl id))
  | typs => exact .of_unlessFaulted (.of_inIdle (.accepted rfl rfl id))
  | prss => exact .of_unlessFaulted (.of_inIdle (.accepted rfl rfl id))
  | blds n => exact .of_unlessFaulted (.of_inIdle (.of_withType (.of_startBuild n r)))
  | push b => exact .of_unlessFaulted (.of_pushByMode b r)
  | endInput => exact .of_unlessFaulted (.of_endByMode r)
  | rd n => exact .of_rdEffect n r

theorem blockStep_errorOutcome (w : CmdWord) (r : Regs) : ∃ code, ErrorOutcome code r (blockStep w r) := by
  unfold blockStep
  split
  · exact ⟨_, effectOf_errorOutcome _ r⟩
  · exact ⟨.ok, .refused rfl⟩

/-- A refused command on an already faulted block changes no register. -/
theorem illegal_regs_of_faulted {r : Regs} (hf : r.fault = true) (he : r.err = .illegalCommand) : (illegal r).regs = r := by
  cases r
  simp_all

end Sys2Proof.Machine
end

section
/-! The fields of STATUS, cut out bit by bit (R26). -/

namespace Sys2Proof.Machine

variable (r : Regs)

theorem statusWord_flags :
    (statusWord r).getLsbD 5 = r.valid ∧ (statusWord r).getLsbD 6 = r.tvalid ∧ (statusWord r).getLsbD 7 = r.cvalid ∧
      (statusWord r).getLsbD 8 = r.fault := by
  simp [statusWord, flagAt]

/-- The three codes, and the zeros in the bits that belong to no field. -/
theorem statusWord_codes :
    (statusWord r).extractLsb' 0 3 = r.mode.code ∧ (statusWord r).extractLsb' 3 2 = r.ph.code ∧
      (statusWord r).extractLsb' 9 3 = 0#3 ∧ (statusWord r).extractLsb' 12 4 = r.err.code ∧
      (statusWord r).extractLsb' 16 16 = 0#16 := by
  refine ⟨?_, ?_, ?_, ?_, ?_⟩ <;>
    (apply BitVec.eq_of_getLsbD_eq
     intro k hk
     interval_cases k <;> simp [statusWord, flagAt])

end Sys2Proof.Machine
end

section
/-! The obligations on the fields of STATUS, on `ERR` and on `FAULT`. -/

namespace Sys2Proof.Machine

/-- Settles O17: each field of STATUS is the code of its register, and the codes are those of R17, R18 and R200. -/
theorem statusFieldLayout : Obligations.StatusFieldLayout := by
  unfold Obligations.StatusFieldLayout
  intro r
  obtain ⟨hvalid, htvalid, hcvalid, hfault⟩ := statusWord_flags r
  obtain ⟨hmode, hph, hmid, herr, htop⟩ := statusWord_codes r
  refine ⟨hmode.trans ?_, hph.trans ?_, hvalid, htvalid, hcvalid, hfault, hmid, herr.trans ?_, htop, rfl⟩
  · cases r.mode <;> rfl
  · cases r.ph <;> rfl
  · cases r.err <;> rfl

/-- Settles O55: every command has an `ErrorOutcome`, and what it leaves in `ERR` when accepted goes by the command. -/
theorem errorCodeLife : Obligations.ErrorCodeLife := by
  unfold Obligations.ErrorCodeLife
  intro i s t h
  obtain rfl := (exec_next_iff i s t).mp h
  have ho := effectOf_errorOutcome i s.regs
  refine ⟨(effectOf i s.regs).resp, rfl, ?_, ho.status_mem⟩
  rw [commit_regs, ho.err_eq]
  cases i <;> simp [errIfAccepted]

/-- Settles O11: `FAULT` rises in a refusal only, and the fault gate refuses all but two words; by R25 (e) a refusal under `FAULT`
writes what stands there already. -/
theorem faultHoldsUntilClear : Obligations.FaultHoldsUntilClear := by
  unfold Obligations.FaultHoldsUntilClear
  intro s t w rest hinv hw hstep
  obtain rfl : State.commit { s with commands := rest } (blockStep w s.regs) = t := by
    simpa [step_of_cons hw] using hstep
  have hclr : encode .clr = 0x0100000000#40 := rfl
  have hrd : encode (.rd 0#32) = 0x3000000000#40 := rfl
  rw [← hclr, ← hrd]
  have frozen (hf : s.regs.fault = true) : { s.regs with fault := true, err := .illegalCommand } = s.regs :=
    illegal_regs_of_faulted hf (hinv.stated.e.mp hf)
  refine ⟨fun hf => ?_, fun hf => ⟨fun ht => ?_, ?_⟩, fun hf hc hr => ?_, ?_⟩
  · obtain ⟨code, ho⟩ := blockStep_errorOutcome w s.regs
    simpa using ho.fault_iff hf
  · by_contra hc
    by_cases hr : w = encode (.rd 0#32)
    · subst hr
      simp [blockStep_rd_status, hf] at ht
    · simp [blockStep_of_faulted hf hc hr] at ht
  · rintro rfl
    simp [blockStep_clr, Regs.reset]
  · rw [blockStep_of_faulted hf hc hr]
    simp [State.commit, frozen hf]
  · rintro hf rfl
    simp [State.commit, blockStep_rd_status]

end Sys2Proof.Machine
end

section
/-! The words the decoder refuses are items 1 and 2 of R65, and the words it takes carry the fields of their command (R60, R63, R64). -/

namespace Sys2Proof

open Sys2Proof.Machine

theorem ofCode_ne_none : ∀ c ∈ definedOpcodes, Opcode.ofCode c ≠ none := by decide

theorem ne_zero_of_decodeZero_error {i : Instr} {opr : Word} {e : DecodeError} (h : decodeZero i opr = .error e) : opr ≠ 0#32 := by
  rintro rfl
  cases h

/-- A set bit in `opr[31:8]` makes the operand larger than a byte. -/
theorem byte_lt_of_highBits {opr : Word} (h : opr.extractLsb' 8 24 ≠ 0#24) : 0xFF < opr.toNat := by
  by_contra hle
  refine h (BitVec.eq_of_toNat_eq ?_)
  have hhigh : opr.toNat / 256 = 0 := by omega
  simp [BitVec.extractLsb'_toNat, Nat.shiftRight_eq_div_pow, hhigh]

/-- An operand that is not of its opcode's form is item 2 of R65. -/
theorem listed_of_decodeOperand_error {op : Opcode} {opr : Word} {e : DecodeError} (h : decodeOperand op opr = .error e)
    (r : Regs) : ListedIllegal op.code opr r := by
  cases op
  case blds => cases h
  case push =>
    simp only [decodeOperand, decodeByte] at h
    split at h
    · cases h
    · exact .operandNoByte rfl (byte_lt_of_highBits ‹_›)
  case rd =>
    simp only [decodeOperand, decodeRegnum] at h
    split at h
    · cases h
    · exact .reservedRegister rfl (by omega)
  all_goals exact .operandNotZero (by decide) (ne_zero_of_decodeZero_error h)

/-- A word that is no command is on the list of R65. -/
theorem listed_of_decode_error {opc : BitVec 8} {opr : Word} {e : DecodeError} (h : decode (opc ++ opr) = .error e) (r : Regs) :
    ListedIllegal opc opr r := by
  rw [decode, opcField_append, oprField_append] at h
  split at h
  case h_1 hnone => exact .undefinedOpcode fun hmem => ofCode_ne_none opc hmem hnone
  case h_2 op hop =>
    rw [← code_of_ofCode hop]
    exact listed_of_decodeOperand_error h r

/-- The fields of a word that decodes are those of its command. -/
theorem fields_of_decode {opc : BitVec 8} {opr : Word} {i : Instr} (h : decode (opc ++ opr) = .ok i) :
    i.opcode.code = opc ∧ i.operand = opr := by
  have hw := encode_of_decode h
  rw [encode] at hw
  constructor
  · simpa only [opcField_append] using congrArg opcField hw
  · simpa only [oprField_append] using congrArg oprField hw

/-- The fields of a command are decoded to no other command. -/
theorem eq_of_decodeOperand_fields {i j : Instr} (h : decodeOperand j.opcode j.operand = .ok i) : i = j := by
  cases j
  case blds => cases h; rfl
  case push b =>
    change decodeByte (b.setWidth 32) = .ok i at h
    unfold decodeByte at h
    split at h
    · cases h
      exact congrArg Instr.push (BitVec.eq_of_toNat_eq (by simpa using b.isLt))
    · cases h
  case rd n =>
    change decodeRegnum n = .ok i at h
    unfold decodeRegnum at h
    split at h
    · cases h; rfl
    · cases h
  all_goals exact (eq_of_decodeZero h).1

/-- A word that decodes is the encoding of one command only. -/
theorem eq_encode_iff {w : CmdWord} {i : Instr} (h : decode w = .ok i) (j : Instr) : w = encode j ↔ i = j := by
  constructor
  · rintro rfl
    rw [encode, decode_append] at h
    exact eq_of_decodeOperand_fields h
  · rintro rfl
    exact (encode_of_decode h).symm

end Sys2Proof
end

section
/-! A listed command is refused (R65, R207). -/

namespace Sys2Proof.Machine

variable {n : Word} {v : View} {r : Regs}

/-- A gate does not let a refused command through. -/
theorem unlessFaulted_eq_illegal {f : Regs → Effect} (h : f r = illegal r) : unlessFaulted f r = illegal r := by
  obtain ⟨-, hu⟩ | ⟨-, hu⟩ := unlessFaulted_cases f r
  · exact hu
  · exact hu.trans h

theorem inIdle_eq_illegal {f : Regs → Effect} (h : f r = illegal r) : inIdle f r = illegal r := by
  obtain ⟨-, hu⟩ | ⟨-, hu⟩ := inIdle_cases f r
  · exact hu.trans h
  · exact hu

theorem bldsEffect_of_noType (n : Word) (h : r.tvalid = false) : bldsEffect n r = illegal r :=
  unlessFaulted_eq_illegal (inIdle_eq_illegal (withType_of_none _ h))

theorem pushEffect_of_idle (b : Byte) (h : r.mode = .idle) : pushEffect b r = illegal r :=
  unlessFaulted_eq_illegal (by rw [pushByMode, h])

theorem endEffect_of_idle_or_build (h : r.mode = .idle ∨ r.mode = .build) : endEffect r = illegal r :=
  unlessFaulted_eq_illegal (by obtain h | h := h <;> rw [endByMode, h])

/-- The reserved register numbers (R49). -/
theorem viewOf_eq_none_iff : viewOf n = none ↔ 4 < n.toNat := by
  obtain ⟨rfl, -⟩ | ⟨rfl, -⟩ | ⟨rfl, -⟩ | ⟨rfl, -⟩ | ⟨rfl, -⟩ | ⟨hn, hv⟩ := viewOf_cases n
  case inr.inr.inr.inr.inr => simp [hv, hn]
  all_goals decide

theorem rdEffect_of_reserved (h : 4 < n.toNat) (r : Regs) : rdEffect n r = illegal r := by
  rw [rdEffect, viewOf_eq_none_iff.mpr h]

/-- A view whose flag is 0 is refused, faulted or not (R166). -/
theorem rdEffect_of_unreadable (hv : viewOf n = some v) (hx : readView v r = none) : rdEffect n r = illegal r := by
  have hrd : rdView v r = illegal r := by rw [rdView, hx]
  unfold rdEffect
  rw [hv]
  cases v
  case status => exact hrd
  all_goals exact unlessFaulted_eq_illegal hrd

/-- A view whose flag is 1 is answered, and under `FAULT` STATUS still is (R166). -/
theorem rdEffect_of_readable {x : Word} (hv : viewOf n = some v) (hx : readView v r = some x) (hf : r.fault = false ∨ n = 0#32) :
    rdEffect n r = answer x r := by
  have hrd : rdView v r = answer x r := by rw [rdView, hx]
  unfold rdEffect
  rw [hv]
  obtain hf | rfl := hf
  · cases v
    case status => exact hrd
    all_goals exact (unlessFaulted_of_clear _ hf).trans hrd
  · cases hv
    exact hrd

/-! The command behind an opcode. -/

theorem code_mem_definedOpcodes (i : Instr) : i.opcode.code ∈ definedOpcodes := by
  cases i <;> simp [Instr.opcode, Opcode.code, definedOpcodes]

theorem operand_of_zeroForm {i : Instr} (h : i.opcode.code ∈ zeroFormOpcodes) : i.operand = 0#32 := by
  cases i
  case blds | push | rd => simp [Instr.opcode, Opcode.code, zeroFormOpcodes] at h
  all_goals rfl

theorem eq_push_of_code {i : Instr} (h : i.opcode.code = 0x20#8) : ∃ b, i = .push b := by
  cases i
  case push b => exact ⟨b, rfl⟩
  all_goals simp [Instr.opcode, Opcode.code] at h

theorem eq_endInput_of_code {i : Instr} (h : i.opcode.code = 0x21#8) : i = .endInput := by
  cases i
  case endInput => rfl
  all_goals simp [Instr.opcode, Opcode.code] at h

theorem eq_blds_of_code {i : Instr} (h : i.opcode.code = 0x13#8) : ∃ n, i = .blds n := by
  cases i
  case blds n => exact ⟨n, rfl⟩
  all_goals simp [Instr.opcode, Opcode.code] at h

theorem eq_rd_of_code {i : Instr} (h : i.opcode.code = 0x30#8) : i = .rd i.operand := by
  cases i
  case rd => rfl
  all_goals simp [Instr.opcode, Opcode.code] at h

theorem effectOf_start_of_busy {i : Instr} (h : i.opcode.code ∈ [0x10#8, 0x11#8, 0x12#8, 0x13#8]) (hm : r.mode ≠ .idle) :
    effectOf i r = illegal r := by
  cases i
  case crcs | typs | prss | blds => exact unlessFaulted_eq_illegal (inIdle_of_busy _ hm)
  all_goals simp [Instr.opcode, Opcode.code] at h

theorem effectOf_rd_of_unreadable {i : Instr} (h : i.opcode.code = 0x30#8) (hv : viewOf i.operand = some v)
    (hx : readView v r = none) : effectOf i r = illegal r := by
  rw [eq_rd_of_code h]
  exact rdEffect_of_unreadable hv hx

/-- A byte fits the operand form of PUSH (R63). -/
theorem operand_push_le (b : Byte) : (Instr.push b).operand.toNat ≤ 0xFF := by
  have := b.isLt
  simp only [Instr.operand, BitVec.toNat_setWidth]
  omega

/-- A command on the list of R65 is refused; the cases are the items of the list. -/
theorem effectOf_of_listed {i : Instr} (h : ListedIllegal i.opcode.code i.operand r) : effectOf i r = illegal r := by
  cases h with
  | undefinedOpcode h => exact absurd (code_mem_definedOpcodes i) h
  | operandNotZero h h' => exact absurd (operand_of_zeroForm h) h'
  | operandNoByte h h' =>
    obtain ⟨b, rfl⟩ := eq_push_of_code h
    exact absurd (operand_push_le b) (by omega)
  | reservedRegister h h' =>
    rw [eq_rd_of_code h]
    exact rdEffect_of_reserved h' r
  | faulted h h' h'' =>
    refine effectOf_of_faulted h ?_ ?_ <;> rintro rfl
    · exact h' ⟨rfl, rfl⟩
    · exact h'' ⟨rfl, rfl⟩
  | busy h h' => exact effectOf_start_of_busy h h'
  | noType h h' =>
    obtain ⟨n, rfl⟩ := eq_blds_of_code h
    exact bldsEffect_of_noType n h'
  | pushInIdle h h' =>
    obtain ⟨b, rfl⟩ := eq_push_of_code h
    exact pushEffect_of_idle b h'
  | endInIdleOrBuild h h' =>
    rw [eq_endInput_of_code h]
    exact endEffect_of_idle_or_build h'
  | noLength h h' h'' => exact effectOf_rd_of_unreadable (v := .len) h (by rw [h']; rfl) (by simp [readView, h''])
  | noTypeToRead h h' h'' =>
    obtain h' | h' := h'
    · exact effectOf_rd_of_unreadable (v := .type) h (by rw [h']; rfl) (by simp [readView, h''])
    · exact effectOf_rd_of_unreadable (v := .props) h (by rw [h']; rfl) (by simp [readView, h''])
  | noCrcToRead h h' h'' => exact effectOf_rd_of_unreadable (v := .crcOut) h (by rw [h']; rfl) (by simp [readView, h''])

end Sys2Proof.Machine
end

section
/-! A command that is not listed is accepted, and the response says how the operation in progress went on (R65, R66). -/

namespace Sys2Proof.Machine

/-- What an operation in progress makes of a PUSH or an END. -/
inductive OperationOutcome (r : Regs) (e : Effect) : Prop where
  /-- The operation goes on. -/
  | goesOn (hresp : e.resp = ⟨.ok, false, 0#32⟩) (hm : e.regs.mode = r.mode)
  /-- The operation ended, successfully or by termination. -/
  | ends (st : Status) (hst : st ∈ [Status.ok, .invalidTypeBytes, .insufficientData, .crcMismatch]) (hresp : e.resp = ⟨st, true, 0#32⟩)
      (hm : e.regs.mode = .idle)

namespace OperationOutcome

theorem of_finishParse (r r' : Regs) : OperationOutcome r (finishParse r') := by
  obtain ⟨-, h⟩ | ⟨-, -, h⟩ | ⟨-, -, h⟩ := finishParse_cases r' <;> rw [h]
  · exact .ends .invalidTypeBytes (by decide) rfl rfl
  · exact .ends .crcMismatch (by decide) rfl rfl
  · exact .ends .ok (by decide) rfl rfl

theorem of_pushParse (b : Byte) (r : Regs) : OperationOutcome r (pushParse b r) := by
  unfold pushParse
  cases r.ph
  case crc =>
    simp only [pushReceivedCrc]
    split
    · exact of_finishParse r _
    · exact .goesOn rfl rfl
  all_goals
    simp only [pushLength, pushTypeField, pushData]
    split <;> exact .goesOn rfl rfl

theorem of_pushByMode (b : Byte) {r : Regs} (h : r.mode ≠ .idle) : OperationOutcome r (pushByMode b r) := by
  unfold pushByMode
  split
  case h_1 hm => exact absurd hm h
  case h_2 => exact .goesOn rfl rfl
  case h_3 => unfold pushType; split <;> exact .goesOn rfl rfl
  case h_4 => exact of_pushParse b r
  case h_5 =>
    simp only [pushBuild]
    split
    · exact .ends .ok (by decide) rfl rfl
    · exact .goesOn rfl rfl

theorem of_endByMode {r : Regs} (h : r.mode ≠ .idle) (h' : r.mode ≠ .build) : OperationOutcome r (endByMode r) := by
  unfold endByMode
  split
  case h_1 hm => exact absurd hm h
  case h_2 => exact .ends .ok (by decide) rfl rfl
  case h_3 =>
    unfold endType
    split
    · exact .ends .ok (by decide) rfl rfl
    · exact .ends .invalidTypeBytes (by decide) rfl rfl
  case h_4 => exact .ends .insufficientData (by decide) rfl rfl
  case h_5 hm => exact absurd hm h'

end OperationOutcome

/-- The combinations of `st` and `done` (R66). -/
def ListedCombination (p : Response) : Prop :=
  p.st = .ok ∨ (p.done = true ∧ p.st ∈ [Status.invalidTypeBytes, .insufficientData, .crcMismatch]) ∨
    (p.st = .illegalCommand ∧ p.done = false)

/-- What an accepted command answers, and whether it took the block out of an operation (R66). -/
inductive AcceptedOutcome (i : Instr) (r : Regs) (e : Effect) : Prop where
  /-- Nothing ended; only CLR leaves an operation in this way. -/
  | goesOn (hrd : ∀ n, i ≠ .rd n) (hblds : i ≠ .blds 0#32) (hresp : e.resp = ⟨.ok, false, 0#32⟩)
      (hm : i ≠ .clr → r.mode ≠ .idle → e.regs.mode ≠ .idle)
  /-- An operation in progress ended. -/
  | ends (hrd : ∀ n, i ≠ .rd n) (hclr : i ≠ .clr) (hbusy : r.mode ≠ .idle) (st : Status)
      (hst : st ∈ [Status.ok, .invalidTypeBytes, .insufficientData, .crcMismatch]) (hresp : e.resp = ⟨st, true, 0#32⟩)
      (hm : e.regs.mode = .idle)
  /-- The build of an empty chunk, which begins and ends in one step (R122). -/
  | builtEmpty (hi : i = .blds 0#32) (hresp : e.resp = ⟨.ok, true, 0#32⟩)
  /-- A view was read (R166). -/
  | read (n x : Word) (v : View) (hi : i = .rd n) (hv : viewOf n = some v) (hx : readView v r = some x) (he : e = answer x r)

namespace AcceptedOutcome

variable {i : Instr} {r : Regs} {e : Effect}

theorem of_operation (hrd : ∀ n, i ≠ .rd n) (hblds : i ≠ .blds 0#32) (hclr : i ≠ .clr) (hbusy : r.mode ≠ .idle)
    (h : OperationOutcome r e) : AcceptedOutcome i r e := by
  cases h with
  | goesOn hresp hm => exact .goesOn hrd hblds hresp fun _ h => by rwa [hm]
  | ends st hst hresp hm => exact .ends hrd hclr hbusy st hst hresp hm

theorem of_startBuild (n : Word) (r : Regs) : AcceptedOutcome (.blds n) r (startBuild n r) := by
  unfold startBuild
  split
  case isTrue hn => exact .builtEmpty (by rw [hn]) rfl
  case isFalse hn => exact .goesOn nofun (by simpa using hn) rfl nofun

/-- An accepted command has a status of its operation, not that of a refusal. -/
theorem st_ne_illegal (h : AcceptedOutcome i r e) : e.resp.st ≠ .illegalCommand := by
  cases h with
  | goesOn hrd hblds hresp => simp [hresp]
  | ends hrd hclr hbusy st hst hresp =>
    rw [hresp]
    rintro rfl
    simp at hst
  | builtEmpty hi hresp => simp [hresp]
  | read n x v hi hv hx he => simp [he]

theorem listedCombination (h : AcceptedOutcome i r e) : ListedCombination e.resp := by
  cases h with
  | goesOn hrd hblds hresp => exact .inl (by rw [hresp])
  | ends hrd hclr hbusy st hst hresp =>
    rw [hresp]
    obtain rfl | hst := List.mem_cons.mp hst
    · exact .inl rfl
    · exact .inr (.inl ⟨rfl, hst⟩)
  | builtEmpty hi hresp => exact .inl (by rw [hresp])
  | read n x v hi hv hx he => exact .inl (by rw [he]; rfl)

/-- Only a read answers with a value. -/
theorem rd_of_rdata (h : AcceptedOutcome i r e) (hx : e.resp.rdata ≠ 0#32) :
    ∃ n, i = .rd n ∧ e.resp.st = .ok := by
  cases h with
  | goesOn hrd hblds hresp => simp [hresp] at hx
  | ends hrd hclr hbusy st hst hresp => simp [hresp] at hx
  | builtEmpty hi hresp => simp [hresp] at hx
  | read n x v hi hv hx he => exact ⟨n, hi, by rw [he]; rfl⟩

/-- An accepted read answers the value of its view. -/
theorem answer_of_rd {n : Word} (h : AcceptedOutcome (.rd n) r e) :
    e.resp.done = false ∧ ∃ v, viewOf n = some v ∧ readView v r = some e.resp.rdata := by
  cases h with
  | goesOn hrd => exact absurd rfl (hrd n)
  | ends hrd => exact absurd rfl (hrd n)
  | builtEmpty hi => cases hi
  | read n x v hi hv hx he =>
    cases hi
    rw [he]
    exact ⟨rfl, v, hv, hx⟩

/-- `done` is 1 exactly at the end of an operation. -/
theorem done_iff (h : AcceptedOutcome i r e) :
    e.resp.done = true ↔
      (r.mode ≠ .idle ∧ e.regs.mode = .idle ∧ i ≠ .clr) ∨ (i = .blds 0#32 ∧ e.resp.st = .ok) := by
  cases h with
  | goesOn hrd hblds hresp hm =>
    have hbusy : ¬ (r.mode ≠ .idle ∧ e.regs.mode = .idle ∧ i ≠ .clr) := fun ⟨hb, hi, hc⟩ => hm hc hb hi
    simp [hresp, hblds, hbusy]
  | ends hrd hclr hbusy st hst hresp hm => simp [hresp, hclr, hbusy, hm]
  | builtEmpty hi hresp => simp [hresp, hi]
  | read n x v hi hv hx he => simp [he, hi]

end AcceptedOutcome

variable {r : Regs}

/-- A view that is not answered is item 8 of R65. -/
theorem listed_of_unreadable {n : Word} {v : View} (hv : viewOf n = some v) (hx : readView v r = none) : ListedIllegal 0x30#8 n r := by
  obtain ⟨rfl, h⟩ | ⟨rfl, h⟩ | ⟨rfl, h⟩ | ⟨rfl, h⟩ | ⟨rfl, h⟩ | ⟨-, h⟩ := viewOf_cases n <;>
    (rw [h] at hv; cases hv)
  · cases hx
  · exact .noLength rfl rfl (by simpa [readView] using hx)
  · exact .noTypeToRead rfl (.inl rfl) (by simpa [readView] using hx)
  · exact .noCrcToRead rfl rfl (by simpa [readView] using hx)
  · exact .noTypeToRead rfl (.inr rfl) (by simpa [readView] using hx)

/-- Item 3 of R65. -/
theorem fault_false_of_not_listed {opc : BitVec 8} {opr : Word} (h : ¬ ListedIllegal opc opr r)
    (hclr : ¬ (opc = 0x01#8 ∧ opr = 0#32)) (hrd : ¬ (opc = 0x30#8 ∧ opr = 0#32)) : r.fault = false := by
  by_contra hf
  exact h (.faulted (by simpa using hf) hclr hrd)

/-- Item 4 of R65. -/
theorem idle_of_not_listed {opc : BitVec 8} {opr : Word} (h : ¬ ListedIllegal opc opr r)
    (hopc : opc ∈ [0x10#8, 0x11#8, 0x12#8, 0x13#8]) : r.mode = .idle := by
  by_contra hm
  exact h (.busy hopc hm)

theorem AcceptedOutcome.of_unlessFaulted {i : Instr} {f : Regs → Effect} (hf : r.fault = false) (h : AcceptedOutcome i r (f r)) :
    AcceptedOutcome i r (unlessFaulted f r) := by
  rwa [unlessFaulted_of_clear f hf]

/-- A start command that is not listed passes both of its tests. -/
theorem AcceptedOutcome.of_start {i : Instr} {f : Regs → Effect} (h : ¬ ListedIllegal i.opcode.code i.operand r)
    (hopc : i.opcode.code ∈ [0x10#8, 0x11#8, 0x12#8, 0x13#8]) (hacc : AcceptedOutcome i r (f r)) :
    AcceptedOutcome i r (unlessFaulted (inIdle f) r) := by
  have hf : r.fault = false := fault_false_of_not_listed h
    (fun ⟨hc, _⟩ => by simp [hc] at hopc) (fun ⟨hc, _⟩ => by simp [hc] at hopc)
  refine .of_unlessFaulted hf ?_
  rwa [inIdle_of_idle f (idle_of_not_listed h hopc)]

theorem rdEffect_of_not_listed {n : Word} (h : ¬ ListedIllegal 0x30#8 n r) :
    ∃ v x, viewOf n = some v ∧ readView v r = some x ∧ rdEffect n r = answer x r := by
  have hf : r.fault = false ∨ n = 0#32 := by
    by_cases hn : n = 0#32
    · exact .inr hn
    · exact .inl (fault_false_of_not_listed h (by simp) (by simp [hn]))
  cases hv : viewOf n with
  | none => exact absurd (.reservedRegister rfl (viewOf_eq_none_iff.mp hv)) h
  | some v =>
    cases hx : readView v r with
    | none => exact absurd (listed_of_unreadable hv hx) h
    | some x => exact ⟨v, x, rfl, hx, rdEffect_of_readable hv hx hf⟩

/-- A command that is not on the list of R65 is accepted. -/
theorem effectOf_of_not_listed {i : Instr} (h : ¬ ListedIllegal i.opcode.code i.operand r) : AcceptedOutcome i r (effectOf i r) := by
  cases i with
  | nop =>
    have hf : r.fault = false := fault_false_of_not_listed h (by decide) (by decide)
    exact .of_unlessFaulted hf (.goesOn nofun nofun rfl fun _ hm => hm)
  | clr => exact .goesOn nofun nofun rfl fun hc => absurd rfl hc
  | crcs => exact .of_start h (by decide) (.goesOn nofun nofun rfl nofun)
  | typs => exact .of_start h (by decide) (.goesOn nofun nofun rfl nofun)
  | prss => exact .of_start h (by decide) (.goesOn nofun nofun rfl nofun)
  | blds n =>
    have ht : r.tvalid = true := by
      by_contra ht
      exact h (.noType rfl (by simpa using ht))
    refine .of_start h (by simp [Instr.opcode, Opcode.code]) ?_
    rw [withType_of_loaded _ ht]
    exact .of_startBuild n r
  | push b =>
    have hbusy : r.mode ≠ .idle := fun hm => h (.pushInIdle rfl hm)
    have hf : r.fault = false :=
      fault_false_of_not_listed h (by simp [Instr.opcode, Opcode.code]) (by simp [Instr.opcode, Opcode.code])
    exact .of_unlessFaulted hf (.of_operation nofun nofun nofun hbusy (.of_pushByMode b hbusy))
  | endInput =>
    have hbusy : r.mode ≠ .idle := fun hm => h (.endInIdleOrBuild rfl (.inl hm))
    have hbuild : r.mode ≠ .build := fun hm => h (.endInIdleOrBuild rfl (.inr hm))
    have hf : r.fault = false := fault_false_of_not_listed h (by decide) (by decide)
    exact .of_unlessFaulted hf (.of_operation nofun nofun nofun hbusy (.of_endByMode hbusy hbuild))
  | rd n =>
    obtain ⟨v, x, hv, hx, he⟩ := rdEffect_of_not_listed h
    exact .read n x v rfl hv hx he

/-- A word on the list of R65 is refused: it is no command, or a refused one. -/
theorem blockStep_of_listed {opc : BitVec 8} {opr : Word} (h : ListedIllegal opc opr r) : blockStep (opc ++ opr) r = illegal r := by
  unfold blockStep
  split
  case h_1 i hd =>
    obtain ⟨rfl, rfl⟩ := fields_of_decode hd
    exact effectOf_of_listed h
  case h_2 => rfl

/-- A word that is not on the list of R65 is a command, and accepted. -/
theorem blockStep_of_not_listed {opc : BitVec 8} {opr : Word} (h : ¬ ListedIllegal opc opr r) :
    ∃ i, decode (opc ++ opr) = .ok i ∧ AcceptedOutcome i r (blockStep (opc ++ opr) r) := by
  unfold blockStep
  split
  case h_1 i hd =>
    obtain ⟨rfl, rfl⟩ := fields_of_decode hd
    exact ⟨i, hd, effectOf_of_not_listed h⟩
  case h_2 e hd => exact absurd (listed_of_decode_error hd r) h

/-- Every word is refused, or is a command and accepted. -/
theorem blockStep_cases (w : CmdWord) (r : Regs) :
    blockStep w r = illegal r ∨ ∃ i, decode w = .ok i ∧ AcceptedOutcome i r (blockStep w r) := by
  rw [← fields_append w]
  by_cases h : ListedIllegal (opcField w) (oprField w) r
  · exact .inl (blockStep_of_listed h)
  · exact .inr (blockStep_of_not_listed h)

/-- Only a refusal raises `FAULT` (R24). -/
theorem ErrorOutcome.fault_of_st_ne_illegal {code : Status} {e : Effect} (h : ErrorOutcome code r e) (hst : e.resp.st ≠ .illegalCommand) :
    e.regs.fault = true → r.fault = true := by
  cases h with
  | refused h => simp [h] at hst
  | ended _ _ hf => exact hf
  | accepted _ _ hf => exact hf

end Sys2Proof.Machine
end

section
/-! The obligations on the list of R65 and on the responses of R66. -/

namespace Sys2Proof.Machine

/-- The step on a listed word is that of an illegal command (R207). -/
theorem step_of_listed {s : State} {opc : BitVec 8} {opr : Word} {rest : List CmdWord} (hw : s.commands = (opc ++ opr) :: rest)
    (h : ListedIllegal opc opr s.regs) : step s = .next (State.afterIllegal { s with commands := rest }) := by
  rw [step_of_cons hw, blockStep_of_listed h]
  simp [State.commit, State.afterIllegal]

/-- Settles O5: each of the three operands is in item 2 of R65. -/
theorem reservedOperandBitsAreRefused : Obligations.ReservedOperandBitsAreRefused := by
  unfold Obligations.ReservedOperandBitsAreRefused
  rintro s opc opr rest hw (⟨hopc, hopr⟩ | ⟨hopc, hopr⟩ | ⟨hopc, hopr⟩)
  · exact step_of_listed hw (.operandNotZero hopc hopr)
  · exact step_of_listed hw (.operandNoByte hopc (byte_lt_of_highBits hopr))
  · exact step_of_listed hw (.reservedRegister hopc hopr)

/-- Settles O10: a listed word is refused, any other word is accepted, and only a refusal raises `FAULT`. -/
theorem illegalExactlyWhenListed : Obligations.IllegalExactlyWhenListed := by
  unfold Obligations.IllegalExactlyWhenListed
  intro s opc opr rest hw
  refine ⟨step_of_listed hw, fun h => ?_⟩
  obtain ⟨i, -, hacc⟩ := blockStep_of_not_listed h
  obtain ⟨code, herr⟩ := blockStep_errorOutcome (opc ++ opr) s.regs
  exact ⟨_, _, step_of_cons hw, rfl, hacc.st_ne_illegal, herr.fault_of_st_ne_illegal hacc.st_ne_illegal⟩

/-- Settles O53: a refusal has one response, and an accepted command that of its `AcceptedOutcome`. -/
theorem responseCombinations : Obligations.ResponseCombinations := by
  unfold Obligations.ResponseCombinations
  intro s w rest hw
  refine ⟨_, _, step_of_cons hw, rfl, ?_⟩
  have hclr : 0x0100000000#40 = encode .clr := rfl
  have hblds : 0x1300000000#40 = encode (.blds 0#32) := rfl
  have hrd (n : Word) : 0x30#8 ++ n = encode (.rd n) := rfl
  simp only [hclr, hblds, hrd, commit_regs]
  obtain h | ⟨i, hd, h⟩ := blockStep_cases w s.regs
  · rw [h]
    simp +contextual
  · simp only [ne_eq, eq_encode_iff hd]
    refine ⟨h.listedCombination, h.rd_of_rdata, ?_, h.done_iff⟩
    rintro n rfl
    obtain ⟨hdone, hview⟩ := h.answer_of_rd
    exact ⟨hdone, fun _ => hview⟩

end Sys2Proof.Machine
end

section
/-! The operand forms zero and byte at their fields (R63, R64), and the state an accepted or refused command leaves (R160, R207). -/

namespace Sys2Proof

theorem decodeZero_eq_ok_iff (i : Instr) (opr : Word) : decodeZero i opr = .ok i ↔ opr = 0#32 := by
  refine ⟨fun h => (eq_of_decodeZero h).2, ?_⟩
  rintro rfl
  rfl

/-- A word with an opcode of form zero is that command exactly with the operand 0 (R63, R64). -/
theorem decode_zeroForm_iff {op : Opcode} {i : Instr} (hform : decodeOperand op = decodeZero i) (opr : Word) :
    decode (op.code ++ opr) = .ok i ↔ opr = 0#32 := by
  rw [decode_append, hform, decodeZero_eq_ok_iff]

/-- A byte operand is recovered from the low field, the high field being 0. -/
theorem decodeByte_append (b : Byte) : decodeByte (0#24 ++ b) = .ok (.push b) := by
  have hhigh : (0#24 ++ b).extractLsb' 8 24 = 0#24 := BitVec.extractLsb'_append_eq_left
  have hlow : (0#24 ++ b).extractLsb' 0 8 = b := BitVec.extractLsb'_append_eq_right
  rw [decodeByte, if_pos hhigh, hlow]

end Sys2Proof

namespace Sys2Proof.Machine

/-- A command whose effect is known answers with that effect's registers, response and emission. -/
theorem exec_of_effectOf {i : Instr} {s : State} {e : Effect} (h : effectOf i s.regs = e) :
    exec i s = .next (s.after e.regs e.resp.st e.resp.done e.resp.rdata e.emitted) := by
  rw [exec_eq_commit, h]
  rfl

theorem commit_illegal (s : State) : s.commit (illegal s.regs) = s.afterIllegal := by
  simp [State.commit, State.afterIllegal]

/-- A refused command leaves the state of R207. -/
theorem exec_of_illegal {i : Instr} {s : State} (h : effectOf i s.regs = illegal s.regs) : exec i s = .next s.afterIllegal := by
  rw [exec_eq_commit, h, commit_illegal]

/-- A start command in an unfaulted idle state passes both gates (R160, R65 item 4). -/
theorem start_of_idle (f : Regs → Effect) {r : Regs} (hf : r.fault = false) (hm : r.mode = .idle) :
    unlessFaulted (inIdle f) r = f r :=
  (unlessFaulted_of_clear _ hf).trans (inIdle_of_idle f hm)

/-- A start command is refused under `FAULT` and during an operation (R65 items 3 and 4). -/
theorem start_of_faulted_or_busy (f : Regs → Effect) {r : Regs} (h : r.fault = true ∨ r.mode ≠ .idle) :
    unlessFaulted (inIdle f) r = illegal r := by
  obtain hf | hm := h
  · exact unlessFaulted_of_faulted _ hf
  · exact unlessFaulted_eq_illegal (inIdle_of_busy f hm)

/-- RD CRCOUT of a completed computation returns the remainder inverted (R29, R166). -/
theorem rd_crcOut {r : Regs} (hf : r.fault = false) (hc : r.cvalid = true) :
    rdEffect 3#32 r = answer (r.crc ^^^ 0xFFFFFFFF#32) r :=
  rdEffect_of_readable (v := .crcOut) rfl (by rw [readView, if_pos hc]) (.inl hf)

theorem exec_rd_crcOut {s : State} (hf : s.regs.fault = false) (hc : s.regs.cvalid = true) :
    exec (.rd 3#32) s = .next (s.after s.regs .ok false (s.regs.crc ^^^ 0xFFFFFFFF#32) []) :=
  exec_of_effectOf (i := .rd 3#32) (s := s) (rd_crcOut hf hc)

end Sys2Proof.Machine
end

section
/-! The obligations on the commands of a standalone CRC. -/

namespace Sys2Proof.Machine

/-- Settles O20: the two gates of a start command, and the registers of R85 behind them. -/
theorem crcStart : Obligations.CrcStart := by
  unfold Obligations.CrcStart
  refine ⟨decode_zeroForm_iff (op := .crcs) rfl, fun s => ⟨fun hf hm => ?_, fun h => ?_⟩⟩
  · exact exec_of_effectOf (i := .crcs) (s := s) (start_of_idle startCrc hf hm)
  · exact exec_of_illegal (start_of_faulted_or_busy startCrc h)

/-- Settles O21: PUSH in mode CRC is `pushCrc`. -/
theorem crcPush : Obligations.CrcPush := by
  unfold Obligations.CrcPush
  intro s b
  refine ⟨?_, fun hf hm => ?_⟩
  · exact (decode_append .push (0#24 ++ b)).trans (decodeByte_append b)
  · exact exec_of_effectOf (i := .push b) (s := s) (push_in_crc b hf hm)

/-- Settles O22: END in mode CRC is `endCrc`, which keeps `CRC` and makes it readable. -/
theorem crcEnd : Obligations.CrcEnd := by
  unfold Obligations.CrcEnd
  refine ⟨decode_zeroForm_iff (op := .endInput) rfl, fun s hf hm => ?_⟩
  have hend := exec_of_effectOf (i := .endInput) (s := s) (end_in_crc hf hm)
  refine ⟨hend, fun t ht => ?_⟩
  obtain rfl := Host.Outcome.next.inj (hend.symm.trans ht)
  exact exec_rd_crcOut hf rfl

end Sys2Proof.Machine
end

section
/-! The six property predicates of PROPS, each a flag of the word (R30, R110 to R115). -/

namespace Sys2Proof.Machine

/-- A flag is its own bit of the word and no other. -/
theorem flagAt_getElem (b : Bool) (k n : Nat) (hn : n < 32) : (flagAt b k)[n] = (decide (n = k) && b) := by
  by_cases hk : n = k
  · subst hk
    simp [flagAt]
  · have hout : k ≤ n → n - k = 0 → b = false := by omega
    simpa [flagAt, hk] using hout

theorem propsWord_flags (t : Word) :
    (propsWord t).getLsbD 0 = isCritical t ∧ (propsWord t).getLsbD 1 = isPublic t ∧ (propsWord t).getLsbD 2 = isPrivate t ∧
      (propsWord t).getLsbD 3 = isReserved t ∧ (propsWord t).getLsbD 4 = isSafeToCopy t ∧ (propsWord t).getLsbD 5 = isValid t := by
  simp [propsWord, flagAt_getElem]

/-- The bits that belong to no predicate are 0 (R30). -/
theorem propsWord_high (t : Word) : (propsWord t).extractLsb' 6 26 = 0#26 := by
  apply BitVec.eq_of_getLsbD_eq
  intro k hk
  have hn : 6 + k < 32 := by omega
  have hpast (j : Nat) (hj : j < 6) : 6 + k ≠ j := by omega
  simp [propsWord, flagAt_getElem, hn, hpast]

end Sys2Proof.Machine
end

section
/-! What the commands of a type load do to the registers (R102, R104, R108), and what any command can do to `TYPE` (R117). -/

namespace Sys2Proof.Machine

theorem isLetter_iff (b : Byte) :
    isLetter b = true ↔ (0x41 ≤ b.toNat ∧ b.toNat ≤ 0x5A) ∨ (0x61 ≤ b.toNat ∧ b.toNat ≤ 0x7A) := by
  simp [isLetter]

/-- `TBAD` after a byte: as before on a letter, set on any other (R104). -/
theorem tbad_or_not_isLetter (tbad : Bool) (b : Byte) :
    (tbad || !isLetter b) =
      if (0x41 ≤ b.toNat ∧ b.toNat ≤ 0x5A) ∨ (0x61 ≤ b.toNat ∧ b.toNat ≤ 0x7A) then tbad else true := by
  rw [if_congr (isLetter_iff b).symm rfl rfl]
  cases isLetter b <;> simp

/-- A PUSH in mode TYPE is always accepted; the count decides only which registers it writes. -/
theorem pushType_eq_proceed (b : Byte) (r : Regs) : pushType b r =
    proceed (if r.cnt = 4#32 then { r with tbad := true }
      else { r with type := shiftIn r.type b, tbad := r.tbad || !isLetter b, cnt := r.cnt + 1#32 }) := by
  unfold pushType
  split <;> rfl

theorem endType_of_four_letters {r : Regs} (hc : r.cnt = 4#32) (hb : r.tbad = false) :
    endType r = complete { r with tvalid := true, mode := .idle, cnt := 0#32 } := by
  rw [endType, if_pos ⟨hc, hb⟩]

theorem endType_of_bad {r : Regs} (h : r.cnt ≠ 4#32 ∨ r.tbad = true) :
    endType r = ⟨{ r with tvalid := false, err := .invalidTypeBytes, mode := .idle, cnt := 0#32 },
      ⟨.invalidTypeBytes, true, 0#32⟩, []⟩ := by
  rw [endType, if_neg]
  rintro ⟨hc, hb⟩
  obtain h | h := h
  · exact h hc
  · simp [hb] at h

/-- However a parse ends, the fourth CRC byte leaves `TYPE` as it is (R145, R205). -/
theorem finishParse_type (r : Regs) : (finishParse r).regs.type = r.type := by
  obtain ⟨-, h⟩ | ⟨-, -, h⟩ | ⟨-, -, h⟩ := finishParse_cases r <;> rw [h] <;> rfl

theorem be32_inj {a b : Word} : be32 a = be32 b ↔ a = b := by
  refine ⟨fun h => ?_, congrArg be32⟩
  rw [← unbe32_be32 a, h, unbe32_be32]

/-- What a command does to `TYPE`. -/
inductive TypeOutcome (i : Instr) (r : Regs) (e : Effect) : Prop where
  /-- Not written. -/
  | kept (htype : e.regs.type = r.type)
  /-- Replaced as a whole, by 0, and no longer readable (R102, R137, R162). -/
  | cleared (hi : i = .typs ∨ i = .prss ∨ i = .clr) (htvalid : e.regs.tvalid = false) (htype : e.regs.type = 0#32)
  /-- A byte is shifted in, while a type load or a parse is in progress (R104, R141). -/
  | shifted (b : Byte) (hi : i = .push b) (hm : r.mode = .type ∨ r.mode = .parse) (htype : e.regs.type = shiftIn r.type b)

namespace TypeOutcome

variable {i : Instr} {f : Regs → Effect} {r : Regs}

/-- The fault gate only adds a refusal. -/
theorem of_unlessFaulted (h : TypeOutcome i r (f r)) : TypeOutcome i r (unlessFaulted f r) := by
  obtain ⟨-, hu⟩ | ⟨-, hu⟩ := unlessFaulted_cases f r <;> rw [hu]
  · exact .kept rfl
  · exact h

/-- The two gates of a start command only add refusals. -/
theorem of_start (h : TypeOutcome i r (f r)) : TypeOutcome i r (unlessFaulted (inIdle f) r) := by
  refine .of_unlessFaulted ?_
  obtain ⟨-, hu⟩ | ⟨-, hu⟩ := inIdle_cases f r <;> rw [hu]
  · exact h
  · exact .kept rfl

theorem of_withType_startBuild (n : Word) (r : Regs) : TypeOutcome (.blds n) r (withType (startBuild n) r) := by
  obtain ⟨-, hu⟩ | ⟨-, hu⟩ := withType_cases (startBuild n) r <;> rw [hu]
  · unfold startBuild
    split <;> exact .kept rfl
  · exact .kept rfl

theorem of_pushParse (b : Byte) (hm : r.mode = .parse) : TypeOutcome (.push b) r (pushParse b r) := by
  unfold pushParse
  cases r.ph with
  | len => simp only [pushLength]; split <;> exact .kept rfl
  | typ => simp only [pushTypeField]; split <;> exact .shifted b rfl (.inr hm) rfl
  | dat => simp only [pushData]; split <;> exact .kept rfl
  | crc =>
    simp only [pushReceivedCrc]
    split
    · exact .kept (finishParse_type _)
    · exact .kept rfl

theorem of_pushByMode (b : Byte) (r : Regs) : TypeOutcome (.push b) r (pushByMode b r) := by
  unfold pushByMode
  split
  case h_1 | h_2 => exact .kept rfl
  case h_3 hm =>
    unfold pushType
    split
    · exact .kept rfl
    · exact .shifted b rfl (.inl hm) rfl
  case h_4 hm => exact of_pushParse b hm
  case h_5 => simp only [pushBuild]; split <;> exact .kept rfl

theorem of_endByMode (r : Regs) : TypeOutcome .endInput r (endByMode r) := by
  unfold endByMode
  cases r.mode
  case type => simp only [endType]; split <;> exact .kept rfl
  all_goals exact .kept rfl

theorem of_rdView (n : Word) (v : View) (r : Regs) : TypeOutcome (.rd n) r (rdView v r) := by
  unfold rdView
  split <;> exact .kept rfl

theorem of_rdEffect (n : Word) (r : Regs) : TypeOutcome (.rd n) r (rdEffect n r) := by
  unfold rdEffect
  split
  · exact of_rdView n .status r
  · exact of_unlessFaulted (of_rdView n _ r)
  · exact .kept rfl

end TypeOutcome

theorem effectOf_typeOutcome (i : Instr) (r : Regs) : TypeOutcome i r (effectOf i r) := by
  cases i with
  | nop => exact .of_unlessFaulted (.kept rfl)
  | clr => exact .cleared (.inr (.inr rfl)) rfl rfl
  | crcs => exact .of_start (.kept rfl)
  | typs => exact .of_start (.cleared (.inl rfl) rfl rfl)
  | prss => exact .of_start (.cleared (.inr (.inl rfl)) rfl rfl)
  | blds n => exact .of_start (.of_withType_startBuild n r)
  | push b => exact .of_unlessFaulted (.of_pushByMode b r)
  | endInput => exact .of_unlessFaulted (.of_endByMode r)
  | rd n => exact .of_rdEffect n r

/-- No type is loaded while its bytes are still coming in (R25 (c)). -/
theorem StatedInvariants.tvalid_of_type_or_parse {r : Regs} (h : StatedInvariants r) (hm : r.mode = .type ∨ r.mode = .parse) :
    r.tvalid = false := by
  obtain hm | hm := hm
  · exact (h.cType hm).1
  · exact (h.cParse hm).1

end Sys2Proof.Machine
end

section
/-! The obligations on the chunk-type unit. -/

namespace Sys2Proof.Machine

/-- Settles O18: each flag of PROPS is a predicate on one byte of the packed type, whose bytes are those it was packed from. -/
theorem propertyBitsOfAType : Obligations.PropertyBitsOfAType := by
  unfold Obligations.PropertyBitsOfAType
  intro t0 t1 t2 t3 t
  obtain ⟨h0, h1, h2, h3⟩ := typeByte_unbe32 t0 t1 t2 t3
  obtain ⟨hcritical, hpublic, hprivate, hreserved, hsafe, hvalid⟩ := propsWord_flags t
  refine ⟨hcritical.trans ?_, hpublic.trans ?_, hprivate.trans ?_, hreserved.trans ?_, hsafe.trans ?_, hvalid.trans ?_,
    propsWord_high t⟩
  · rw [isCritical, caseBit, h0]
  · rw [isPublic, caseBit, h1]
  · rw [isPrivate, caseBit, h1]
  · rw [isReserved, caseBit, h2]
  · rw [isSafeToCopy, caseBit, h3]
  · rw [isValid, caseBit, h2]

/-- Settles O30: by `TypeOutcome` a command keeps `TYPE`, clears it, or shifts a byte into it, and the last only while no type is loaded. -/
theorem loadedTypeIsNeverEdited : Obligations.LoadedTypeIsNeverEdited := by
  unfold Obligations.LoadedTypeIsNeverEdited
  refine ⟨fun _ _ => be32_inj, fun i s t hinv hloaded hexec hne => ?_⟩
  obtain rfl := (exec_next_iff i s t).mp hexec
  cases effectOf_typeOutcome i s.regs with
  | kept htype => exact absurd htype hne
  | cleared hi htvalid htype => exact ⟨hi, htvalid, htype⟩
  | shifted b hi hm htype => simp [hinv.stated.tvalid_of_type_or_parse hm] at hloaded

/-- Settles O26: the two gates of a start command, and the registers of R102 behind them. -/
theorem typeStart : Obligations.TypeStart := by
  unfold Obligations.TypeStart
  refine ⟨decode_zeroForm_iff (op := .typs) rfl, fun s => ⟨fun hf hm => ?_, fun h => ?_⟩⟩
  · exact exec_of_effectOf (i := .typs) (s := s) (start_of_idle startType hf hm)
  · exact exec_of_illegal (start_of_faulted_or_busy startType h)

/-- Settles O27: PUSH in mode TYPE is `pushType`, with the letters of R100 written out as ranges. -/
theorem typePush : Obligations.TypePush := by
  unfold Obligations.TypePush
  intro s b
  refine ⟨(decode_append .push (0#24 ++ b)).trans (decodeByte_append b), fun hf hm => ?_⟩
  have heffect := (push_in_type b hf hm).trans (pushType_eq_proceed b s.regs)
  rw [tbad_or_not_isLetter] at heffect
  exact exec_of_effectOf (i := .push b) heffect

/-- Settles O28: END in mode TYPE is `endType`, by its two outcomes. -/
theorem typeEnd : Obligations.TypeEnd := by
  unfold Obligations.TypeEnd
  refine ⟨decode_zeroForm_iff (op := .endInput) rfl, fun s hf hm => ⟨fun hc hb => ?_, fun hbad => ?_⟩⟩
  · exact exec_of_effectOf (i := .endInput) ((end_in_type hf hm).trans (endType_of_four_letters hc hb))
  · exact exec_of_effectOf (i := .endInput) ((end_in_type hf hm).trans (endType_of_bad hbad))

end Sys2Proof.Machine
end

section
/-! What the commands of a serialization do to the registers and emit (R122 to R125). -/

namespace Sys2Proof.Machine

/-- BLDS in an unfaulted idle state with a loaded type passes its three gates. -/
theorem blds_of_idle_loaded (n : Word) {r : Regs} (hf : r.fault = false) (hm : r.mode = .idle) (ht : r.tvalid = true) :
    bldsEffect n r = startBuild n r :=
  (start_of_idle _ hf hm).trans (withType_of_loaded _ ht)

/-- Each gate of BLDS refuses it (R123, R65 items 3 to 5). -/
theorem blds_of_refused (n : Word) {r : Regs} (h : r.fault = true ∨ r.mode ≠ .idle ∨ r.tvalid = false) :
    bldsEffect n r = illegal r := by
  obtain hf | hm | ht := h
  · exact start_of_faulted_or_busy _ (.inl hf)
  · exact start_of_faulted_or_busy _ (.inr hm)
  · exact bldsEffect_of_noType n ht

theorem startBuild_of_zero {n : Word} (hn : n = 0#32) (r : Regs) :
    startBuild n r =
      emit (be32 0#32 ++ be32 r.type ++ be32 (crcFinish (crcOver crcInitial (be32 r.type))))
        (complete { r with len := n, cnt := 0#32, crc := crcOver crcInitial (be32 r.type), err := .ok, valid := true, cvalid := true }) := by
  rw [startBuild, if_pos hn]

theorem startBuild_of_ne_zero {n : Word} (hn : n ≠ 0#32) (r : Regs) :
    startBuild n r =
      emit (be32 n ++ be32 r.type)
        (proceed { r with len := n, cnt := 0#32, crc := crcOver crcInitial (be32 r.type), err := .ok, valid := false, cvalid := false,
                          mode := .build, ph := .dat }) := by
  rw [startBuild, if_neg hn]

theorem pushBuild_of_last {r : Regs} (b : Byte) (h : r.cnt + 1#32 = r.len) :
    pushBuild b r =
      emit (b :: be32 (crcFinish (crcUpdate r.crc b)))
        (complete { r with crc := crcUpdate r.crc b, mode := .idle, ph := .len, cnt := 0#32, valid := true, cvalid := true }) := by
  rw [pushBuild, if_pos h]
  rfl

theorem pushBuild_of_not_last {r : Regs} (b : Byte) (h : r.cnt + 1#32 ≠ r.len) :
    pushBuild b r = emit [b] (proceed { r with crc := crcUpdate r.crc b, cnt := r.cnt + 1#32 }) := by
  rw [pushBuild, if_neg h]

end Sys2Proof.Machine
end

section
/-! The obligations on the commands of a serialization. -/

namespace Sys2Proof.Machine

/-- Settles O31: the three gates of BLDS, and behind them the two outcomes of `startBuild`. -/
theorem buildStart : Obligations.BuildStart := by
  unfold Obligations.BuildStart
  intro s n
  refine ⟨decode_append .blds n, fun hf hm ht => ?_, fun h => exec_of_illegal (i := .blds n) (blds_of_refused n h)⟩
  have heffect := blds_of_idle_loaded n hf hm ht
  refine ⟨fun hn => ?_, fun hn => ?_⟩
  · exact exec_of_effectOf (i := .blds n) (heffect.trans (startBuild_of_zero hn s.regs))
  · exact exec_of_effectOf (i := .blds n) (heffect.trans (startBuild_of_ne_zero hn s.regs))

/-- Settles O32: PUSH in mode BUILD is `pushBuild`, by its two outcomes. -/
theorem buildPush : Obligations.BuildPush := by
  unfold Obligations.BuildPush
  intro s b
  refine ⟨(decode_append .push (0#24 ++ b)).trans (decodeByte_append b), fun hf hm => ?_⟩
  have heffect := push_in_build b hf hm
  refine ⟨fun hlast => ?_, fun hmore => ?_⟩
  · exact exec_of_effectOf (i := .push b) (heffect.trans (pushBuild_of_last b hlast))
  · exact exec_of_effectOf (i := .push b) (heffect.trans (pushBuild_of_not_last b hmore))

/-- Settles O33: END is refused in mode BUILD, and a refusal emits nothing (R207). -/
theorem buildCannotBeEnded : Obligations.BuildCannotBeEnded := by
  unfold Obligations.BuildCannotBeEnded
  intro s hm
  exact ⟨exec_of_illegal (i := .endInput) (endEffect_of_idle_or_build (.inr hm)), rfl⟩

end Sys2Proof.Machine
end

section
/-! PUSH in mode PARSE, phase by phase (R140 to R145), and what one command can do during a parse (R148). -/

namespace Sys2Proof.Machine

variable {r : Regs}

theorem pushParse_of_len (b : Byte) (h : r.ph = .len) : pushParse b r = pushLength b r := by rw [pushParse, h]

theorem pushParse_of_typ (b : Byte) (h : r.ph = .typ) : pushParse b r = pushTypeField b r := by rw [pushParse, h]

theorem pushParse_of_dat (b : Byte) (h : r.ph = .dat) : pushParse b r = pushData b r := by rw [pushParse, h]

theorem pushParse_of_crc (b : Byte) (h : r.ph = .crc) : pushParse b r = pushReceivedCrc b r := by rw [pushParse, h]

theorem pushLength_of_last (b : Byte) (h : r.cnt = 3#32) :
    pushLength b r = proceed { r with len := shiftIn r.len b, ph := .typ, cnt := 0#32 } := by
  rw [pushLength, if_pos h]

theorem pushLength_of_not_last (b : Byte) (h : r.cnt ≠ 3#32) :
    pushLength b r = proceed { r with len := shiftIn r.len b, cnt := r.cnt + 1#32 } := by
  rw [pushLength, if_neg h]

/-- `TBAD` keeps its value on a letter and rises on any other byte (R141). -/
theorem tbad_or_not_eq_ite (tbad : Bool) (b : Byte) : (tbad || !isLetter b) = if isLetter b = true then tbad else true := by
  cases isLetter b <;> simp

theorem pushTypeField_of_last (b : Byte) (h : r.cnt = 3#32) :
    pushTypeField b r = proceed { r with
      type := shiftIn r.type b, crc := crcUpdate r.crc b, tbad := if isLetter b = true then r.tbad else true
      cnt := 0#32, ph := if r.len = 0#32 then .crc else .dat } := by
  rw [pushTypeField, if_pos h, tbad_or_not_eq_ite]

theorem pushTypeField_of_not_last (b : Byte) (h : r.cnt ≠ 3#32) :
    pushTypeField b r = proceed { r with
      type := shiftIn r.type b, crc := crcUpdate r.crc b, tbad := if isLetter b = true then r.tbad else true
      cnt := r.cnt + 1#32 } := by
  rw [pushTypeField, if_neg h, tbad_or_not_eq_ite]

theorem pushData_of_last (b : Byte) (h : r.cnt + 1#32 = r.len) :
    pushData b r = proceed { r with crc := crcUpdate r.crc b, ph := .crc, cnt := 0#32 } := by
  rw [pushData, if_pos h]

theorem pushData_of_not_last (b : Byte) (h : r.cnt + 1#32 ≠ r.len) :
    pushData b r = proceed { r with crc := crcUpdate r.crc b, cnt := r.cnt + 1#32 } := by
  rw [pushData, if_neg h]

theorem pushReceivedCrc_of_last (b : Byte) (h : r.cnt = 3#32) :
    pushReceivedCrc b r = finishParse { r with rcrc := shiftIn r.rcrc b } := by
  rw [pushReceivedCrc, if_pos h]

theorem pushReceivedCrc_of_not_last (b : Byte) (h : r.cnt ≠ 3#32) :
    pushReceivedCrc b r = proceed { r with rcrc := shiftIn r.rcrc b, cnt := r.cnt + 1#32 } := by
  rw [pushReceivedCrc, if_neg h]

/-- The type test comes first (R145, R210). -/
theorem finishParse_of_badType (h : r.tbad = true) : finishParse r = terminate .invalidTypeBytes r := by
  rw [finishParse, if_pos h]

theorem finishParse_of_mismatch (h : r.tbad = false) (hc : r.rcrc ≠ crcFinish r.crc) :
    finishParse r = terminate .crcMismatch r := by
  rw [finishParse, if_neg (by simp [h]), if_pos hc]

theorem finishParse_of_match (h : r.tbad = false) (hc : r.rcrc = crcFinish r.crc) :
    finishParse r = complete { r with mode := .idle, ph := .len, cnt := 0#32, valid := true, tvalid := true, cvalid := true } := by
  rw [finishParse, if_neg (by simp [h]), if_neg (not_not.mpr hc)]

/-- The operation goes on from `r` to `r'`, and no result becomes readable or unreadable. -/
structure KeepsOperation (r r' : Regs) : Prop where
  mode : r'.mode = r.mode
  valid : r'.valid = r.valid
  tvalid : r'.tvalid = r.tvalid
  cvalid : r'.cvalid = r.cvalid

/-- Every PUSH of a parse but that of the fourth CRC byte lets it go on (R145). -/
theorem pushParse_goesOn (b : Byte) (h : ¬ (r.ph = .crc ∧ r.cnt = 3#32)) :
    ∃ r', pushParse b r = proceed r' ∧ KeepsOperation r r' := by
  cases hp : r.ph with
  | len =>
    rw [pushParse_of_len b hp, pushLength]
    split <;> exact ⟨_, rfl, rfl, rfl, rfl, rfl⟩
  | typ =>
    rw [pushParse_of_typ b hp, pushTypeField]
    split <;> exact ⟨_, rfl, rfl, rfl, rfl, rfl⟩
  | dat =>
    rw [pushParse_of_dat b hp, pushData]
    split <;> exact ⟨_, rfl, rfl, rfl, rfl, rfl⟩
  | crc =>
    rw [pushParse_of_crc b hp, pushReceivedCrc_of_not_last b fun hc => h ⟨hp, hc⟩]
    exact ⟨_, rfl, rfl, rfl, rfl, rfl⟩

/-- The fourth CRC byte completes the received CRC and ends the parse. -/
theorem pushParse_of_fourthCrc (b : Byte) (hp : r.ph = .crc) (hc : r.cnt = 3#32) :
    pushParse b r = finishParse { r with rcrc := shiftIn r.rcrc b } :=
  (pushParse_of_crc b hp).trans (pushReceivedCrc_of_last b hc)

/-- None of the three validity flags is set: no view but STATUS is readable. -/
structure Unreadable (r : Regs) : Prop where
  valid : r.valid = false
  tvalid : r.tvalid = false
  cvalid : r.cvalid = false

/-- R25 (b) and (c). -/
theorem StatedInvariants.unreadable_of_parse (h : StatedInvariants r) (hm : r.mode = .parse) : Unreadable r where
  valid := h.b (by simp [hm])
  tvalid := (h.cParse hm).1
  cvalid := (h.cParse hm).2

theorem Unreadable.readView_eq_none (h : Unreadable r) {v : View} (hv : v ≠ .status) : readView v r = none := by
  obtain ⟨hvalid, htvalid, hcvalid⟩ := h
  cases v
  case status => exact absurd rfl hv
  all_goals simp [readView, hvalid, htvalid, hcvalid]

theorem Unreadable.rdEffect_eq_illegal (h : Unreadable r) {n : Word} (hn : n ≠ 0#32) : rdEffect n r = illegal r := by
  obtain ⟨rfl, -⟩ | ⟨-, hv⟩ | ⟨-, hv⟩ | ⟨-, hv⟩ | ⟨-, hv⟩ | ⟨hlt, -⟩ := viewOf_cases n
  case inr.inr.inr.inr.inr => exact rdEffect_of_reserved hlt r
  case inl => exact absurd rfl hn
  all_goals exact rdEffect_of_unreadable hv (h.readView_eq_none nofun)

/-- What a command can do during a parse: it never emits, and the flags rise together in a successful completion only. -/
inductive ParseOutcome (e : Effect) : Prop where
  | hidden (hemitted : e.emitted = []) (hflags : Unreadable e.regs) (hresp : ¬ (e.resp.done = true ∧ e.resp.st = .ok))
  | completed (hemitted : e.emitted = []) (hvalid : e.regs.valid = true) (htvalid : e.regs.tvalid = true)
      (hcvalid : e.regs.cvalid = true) (hresp : e.resp = ⟨.ok, true, 0#32⟩)

namespace ParseOutcome

theorem of_illegal (h : Unreadable r) : ParseOutcome (illegal r) :=
  .hidden rfl ⟨h.valid, h.tvalid, h.cvalid⟩ (by simp)

theorem of_proceed (h : Unreadable r) : ParseOutcome (proceed r) := .hidden rfl h (by simp)

theorem of_terminate {code : Status} (hcode : code ≠ .ok) (r : Regs) : ParseOutcome (terminate code r) :=
  .hidden rfl ⟨rfl, rfl, rfl⟩ (by simp [hcode])

/-- The fault gate only adds a refusal. -/
theorem of_unlessFaulted {f : Regs → Effect} (h : Unreadable r) (hf : ParseOutcome (f r)) : ParseOutcome (unlessFaulted f r) := by
  obtain ⟨-, hu⟩ | ⟨-, hu⟩ := unlessFaulted_cases f r <;> rw [hu]
  · exact of_illegal h
  · exact hf

theorem of_finishParse (r : Regs) : ParseOutcome (finishParse r) := by
  obtain ⟨-, h⟩ | ⟨-, -, h⟩ | ⟨-, -, h⟩ := finishParse_cases r <;> rw [h]
  · exact of_terminate (by decide) r
  · exact of_terminate (by decide) r
  · exact .completed rfl rfl rfl rfl rfl

theorem of_pushParse (b : Byte) (h : Unreadable r) : ParseOutcome (pushParse b r) := by
  by_cases hlast : r.ph = .crc ∧ r.cnt = 3#32
  · rw [pushParse_of_fourthCrc b hlast.1 hlast.2]
    exact of_finishParse _
  · obtain ⟨r', he, hk⟩ := pushParse_goesOn b hlast
    rw [he]
    exact of_proceed ⟨hk.valid.trans h.valid, hk.tvalid.trans h.tvalid, hk.cvalid.trans h.cvalid⟩

theorem of_rdEffect (n : Word) (h : Unreadable r) : ParseOutcome (rdEffect n r) := by
  by_cases hn : n = 0#32
  · subst hn
    exact .hidden rfl h nofun
  · rw [h.rdEffect_eq_illegal hn]
    exact of_illegal h

end ParseOutcome

theorem effectOf_parseOutcome (i : Instr) (hm : r.mode = .parse) (h : Unreadable r) : ParseOutcome (effectOf i r) := by
  have refused (f : Regs → Effect) : ParseOutcome (unlessFaulted (inIdle f) r) := by
    rw [start_of_faulted_or_busy f (.inr (by simp [hm]))]
    exact .of_illegal h
  cases i with
  | nop => exact .of_unlessFaulted h (.of_proceed h)
  | clr => exact .of_proceed ⟨rfl, rfl, rfl⟩
  | crcs => exact refused startCrc
  | typs => exact refused startType
  | prss => exact refused startParse
  | blds n => exact refused (withType (startBuild n))
  | push b => exact .of_unlessFaulted h (by rw [pushByMode, hm]; exact .of_pushParse b h)
  | endInput => exact .of_unlessFaulted h (by rw [endByMode, hm]; exact .of_terminate (by decide) r)
  | rd n => exact .of_rdEffect n h

end Sys2Proof.Machine
end

section
/-! `chunk_parse` by the length of its input, and the CRC of a message with one byte changed (R135, R151). -/

namespace Sys2Proof.Machine

theorem isWellFormedType_iff {t : List Byte} : isWellFormedType t = true ↔ t.length = 4 ∧ t.all isLetter = true := by
  rw [isWellFormedType, Bool.and_eq_true, beq_iff_eq]

/-- A sequence shorter than the length field is shorter than any chunk, so one test of the length is enough. -/
theorem chunkParse_of_short {m : List Byte} (h : m.length < 12 + (unbe32 (m.take 4)).toNat) :
    chunkParse m = .error .insufficientData := by
  unfold chunkParse
  split
  · rfl
  · exact if_pos h

/-- Of a whole chunk the type is tested, then the CRC, which is taken over the type and data fields as they stand. -/
theorem chunkParse_of_whole {m : List Byte} {n : Nat} (hn : (unbe32 (m.take 4)).toNat = n) (h : 12 + n ≤ m.length) :
    chunkParse m =
      if isWellFormedType ((m.drop 4).take 4) = true then
        if crc32 ((m.drop 4).take (4 + n)) = unbe32 ((m.drop (8 + n)).take 4) then
          .ok ⟨(m.drop 4).take 4, (m.drop 8).take n, unbe32 ((m.drop (8 + n)).take 4)⟩
        else .error .crcMismatch
      else .error .invalidTypeBytes := by
  have hfour : ((m.drop 4).take 4).length = 4 := by simp; omega
  have hfields : (m.drop 4).take (4 + n) = (m.drop 4).take 4 ++ (m.drop 8).take n := by
    rw [List.take_add, List.drop_drop]
  unfold chunkParse
  rw [if_neg (by omega)]
  simp only [hn, hfields]
  rw [if_neg (by omega)]
  cases hl : ((m.drop 4).take 4).all isLetter <;> simp [isWellFormedType, hfour, hl]

/-- The one update at the changed byte separates the remainders, and the bytes after it keep them apart. -/
theorem crc32_ne_of_changed_byte {a b : Byte} (h : a ≠ b) (p q : List Byte) : crc32 (p ++ a :: q) ≠ crc32 (p ++ b :: q) := by
  intro he
  have hover := congrArg crcFinish he
  simp only [crc32, crcFinish_crcFinish, crcOver_append] at hover
  exact h (crcUpdate_injective_right _ (crcOver_injective q hover))

theorem modify_append_cons {α : Type} (f : α → α) {p : List α} {k : Nat} (hk : p.length = k) (a : α) (q : List α) :
    (p ++ a :: q).modify k f = p ++ f a :: q := by
  subst hk
  rw [List.modify_eq_take_cons_drop (by simp)]
  simp

theorem be32_unbe32_of_length {s : List Byte} (h : s.length = 4) : be32 (unbe32 s) = s := by
  obtain ⟨a, b, c, d, rfl⟩ := List.length_eq_four.mp h
  exact be32_unbe32 a b c d

theorem chunkParse_frame_of_mismatch {t d : List Byte} {r : Word} (ht : isWellFormedType t = true)
    (hd : d.length ≤ Config.maxDataLength) (hr : crc32 (t ++ d) ≠ r) :
    chunkParse (be32 (BitVec.ofNat 32 d.length) ++ t ++ d ++ be32 r) = .error .crcMismatch := by
  obtain ⟨hfour, hletters⟩ := isWellFormedType_iff.mp ht
  have hframe := chunkParse_frame t d [] r hfour hd
  rw [List.append_nil, if_neg (by simp [hletters]), if_pos hr] at hframe
  exact hframe

variable {t d : List Byte} {j : Nat} {f : Byte → Byte}

/-- With a data byte changed the CRC field is still that of the old data. -/
theorem chunkParse_of_changed_data (ht : isWellFormedType t = true) (hd : d.length ≤ Config.maxDataLength) (hf : ∀ b, f b ≠ b)
    (hj : j < d.length) : chunkParse ((chunkSerialize t d).modify (8 + j) f) = .error .crcMismatch := by
  obtain ⟨p, a, q, rfl, rfl, -⟩ := List.exists_of_modify f hj
  have hfour := (isWellFormedType_iff.mp ht).1
  have hlen : (p ++ f a :: q).length = (p ++ a :: q).length := by simp
  have hpos : (be32 (BitVec.ofNat 32 (p ++ a :: q).length) ++ t ++ p).length = 8 + p.length := by
    simp [be32_length, hfour, ← Nat.add_assoc]
  have hchanged : (chunkSerialize t (p ++ a :: q)).modify (8 + p.length) f =
      be32 (BitVec.ofNat 32 (p ++ f a :: q).length) ++ t ++ (p ++ f a :: q) ++ be32 (crc32 (t ++ (p ++ a :: q))) := by
    rw [hlen]
    simpa [chunkSerialize] using modify_append_cons f hpos a (q ++ be32 (crc32 (t ++ (p ++ a :: q))))
  rw [hchanged]
  refine chunkParse_frame_of_mismatch ht (hlen.trans_le hd) ?_
  simpa using crc32_ne_of_changed_byte (hf a) (t ++ p) q

/-- With a byte of the CRC field changed the field holds another word than the CRC of the fields before it. -/
theorem chunkParse_of_changed_crc (ht : isWellFormedType t = true) (hd : d.length ≤ Config.maxDataLength) (hf : ∀ b, f b ≠ b)
    (hj : j < 4) : chunkParse ((chunkSerialize t d).modify (8 + d.length + j) f) = .error .crcMismatch := by
  obtain ⟨p, a, q, hcrc, rfl, -⟩ := List.exists_of_modify f (l := be32 (crc32 (t ++ d))) hj
  have hfour := (isWellFormedType_iff.mp ht).1
  have hfield : be32 (unbe32 (p ++ f a :: q)) = p ++ f a :: q :=
    be32_unbe32_of_length (by simpa [be32_length] using (congrArg List.length hcrc).symm)
  have hpos : (be32 (BitVec.ofNat 32 d.length) ++ t ++ d ++ p).length = 8 + d.length + p.length := by
    simp [be32_length, hfour, ← Nat.add_assoc]
  have hchanged : (chunkSerialize t d).modify (8 + d.length + p.length) f =
      be32 (BitVec.ofNat 32 d.length) ++ t ++ d ++ be32 (unbe32 (p ++ f a :: q)) := by
    rw [hfield, chunkSerialize, hcrc]
    simpa using modify_append_cons f hpos a q
  rw [hchanged]
  refine chunkParse_frame_of_mismatch ht hd fun hr => hf a ?_
  rw [← hr, hcrc] at hfield
  simpa using hfield.symm

/-- Flipping a bit of a byte changes it. -/
theorem xor_bit_ne {k : Nat} (hk : k < 8) (b : Byte) : b ^^^ (1#8 <<< k) ≠ b := by
  intro h
  have hbit := congrArg (fun x => x.getLsbD k) h
  simp [hk] at hbit

end Sys2Proof.Machine
end

section
/-! The obligations on the chunk parse. -/

namespace Sys2Proof.Machine

/-- Settles O43: no flag is set during a parse (R25 (b), (c)), and every command then has a `ParseOutcome`. -/
theorem parseHidesTheChunk : Obligations.ParseHidesTheChunk := by
  unfold Obligations.ParseHidesTheChunk
  intro s hinv hm
  have hu := hinv.stated.unreadable_of_parse hm
  refine ⟨fun n hn => ?_, ?_, fun i t h => ?_⟩
  · exact exec_of_illegal (i := .rd n) (hu.rdEffect_eq_illegal hn)
  · exact exec_of_effectOf (i := .rd 0#32) (e := answer (statusWord s.regs) s.regs) rfl
  · obtain rfl := (exec_next_iff i s t).mp h
    cases effectOf_parseOutcome i hm hu with
    | hidden hemitted hflags hresp =>
      obtain ⟨hvalid, htvalid, hcvalid⟩ := hflags
      exact ⟨by simp [hemitted], _, rfl, .inl ⟨hvalid, htvalid, hcvalid, hresp⟩⟩
    | completed hemitted hvalid htvalid hcvalid hresp =>
      exact ⟨by simp [hemitted], _, rfl, .inr ⟨hvalid, htvalid, hcvalid, hresp⟩⟩

/-- Settles O45: the length decides first, then the two tests of `chunkParse_of_whole` in their order. -/
theorem parseErrorPriority : Obligations.ParseErrorPriority := by
  unfold Obligations.ParseErrorPriority
  intro m n letters sum
  by_cases hlen : m.length < 12 + n
  · have hshort : ¬ 12 + n ≤ m.length := by omega
    simp [chunkParse_of_short hlen, hlen, hshort]
  · have hwhole : 12 + n ≤ m.length := by omega
    have hfour : ¬ m.length < 4 := by omega
    have hparse := chunkParse_of_whole (n := n) rfl hwhole
    by_cases hletters : letters
    · rw [if_pos hletters] at hparse
      by_cases hsum : sum = unbe32 ((m.drop (8 + n)).take 4)
      · rw [if_pos hsum] at hparse
        simp [hparse, hwhole, hlen, hfour, hletters, hsum, eq_comm]
      · rw [if_neg hsum] at hparse
        simp [hparse, hwhole, hlen, hfour, hletters, hsum]
    · rw [if_neg hletters] at hparse
      simp [hparse, hwhole, hlen, hfour, hletters]

/-- Settles O46: the first `12 + n` bytes are whole as well, and the fields cut out of them are the same. -/
theorem parseUsesOnlyTheChunk : Obligations.ParseUsesOnlyTheChunk := by
  unfold Obligations.ParseUsesOnlyTheChunk
  intro m _ hwhole
  generalize hn : (unbe32 (m.take 4)).toNat = n at hwhole ⊢
  have hn' : (unbe32 ((m.take (12 + n)).take 4)).toNat = n := by
    rw [List.take_take, Nat.min_eq_left (by omega), hn]
  rw [chunkParse_of_whole hn hwhole, chunkParse_of_whole hn' (by simp [hwhole])]
  have hcut (i k : Nat) (h : i + k ≤ 12 + n) : ((m.take (12 + n)).drop i).take k = (m.drop i).take k := by
    rw [List.drop_take, List.take_take, Nat.min_eq_left (by omega)]
  rw [hcut 4 4 (by omega), hcut 4 (4 + n) (by omega), hcut (8 + n) 4 (by omega), hcut 8 n (by omega)]

/-- Settles O48: the flipped byte lies in the data field or in the CRC field. -/
theorem singleBitFlipIsDetected : Obligations.SingleBitFlipIsDetected := by
  unfold Obligations.SingleBitFlipIsDetected
  intro t d j k ht hd hlow hhigh hk
  by_cases hdata : j < 8 + d.length
  · obtain ⟨j, rfl⟩ := Nat.exists_eq_add_of_le hlow
    exact chunkParse_of_changed_data ht hd (xor_bit_ne hk) (by omega)
  · obtain ⟨j, rfl⟩ := Nat.exists_eq_add_of_le (Nat.le_of_not_lt hdata)
    exact chunkParse_of_changed_crc ht hd (xor_bit_ne hk) (by omega)

/-- Settles O36: the two gates of a start command, and the registers of R137 behind them. -/
theorem parseStart : Obligations.ParseStart := by
  unfold Obligations.ParseStart
  refine ⟨decode_zeroForm_iff (op := .prss) rfl, fun s => ⟨fun hf hm => ?_, fun h => ?_⟩⟩
  · exact exec_of_effectOf (i := .prss) (s := s) (start_of_idle startParse hf hm)
  · exact exec_of_illegal (start_of_faulted_or_busy startParse h)

/-- Settles O37: PUSH in phase LEN is `pushLength`, by its two outcomes. -/
theorem parseLengthByte : Obligations.ParseLengthByte := by
  unfold Obligations.ParseLengthByte
  intro s b hf hm hp
  have heffect := (push_in_parse b hf hm).trans (pushParse_of_len b hp)
  refine ⟨fun hlast => ?_, fun hmore => ?_⟩
  · exact exec_of_effectOf (i := .push b) (heffect.trans (pushLength_of_last b hlast))
  · exact exec_of_effectOf (i := .push b) (heffect.trans (pushLength_of_not_last b hmore))

/-- Settles O38: PUSH in phase TYP is `pushTypeField`, by its two outcomes. -/
theorem parseTypeByte : Obligations.ParseTypeByte := by
  unfold Obligations.ParseTypeByte
  intro s b hf hm hp
  have heffect := (push_in_parse b hf hm).trans (pushParse_of_typ b hp)
  refine ⟨fun hlast => ?_, fun hmore => ?_⟩
  · exact exec_of_effectOf (i := .push b) (heffect.trans (pushTypeField_of_last b hlast))
  · exact exec_of_effectOf (i := .push b) (heffect.trans (pushTypeField_of_not_last b hmore))

/-- Settles O39: PUSH in phase DAT is `pushData`, by its two outcomes. -/
theorem parseDataByte : Obligations.ParseDataByte := by
  unfold Obligations.ParseDataByte
  intro s b hf hm hp
  have heffect := (push_in_parse b hf hm).trans (pushParse_of_dat b hp)
  refine ⟨fun hlast => ?_, fun hmore => ?_⟩
  · exact exec_of_effectOf (i := .push b) (heffect.trans (pushData_of_last b hlast))
  · exact exec_of_effectOf (i := .push b) (heffect.trans (pushData_of_not_last b hmore))

/-- Settles O40: a count below 3 is not that of the fourth CRC byte. -/
theorem parseCrcByte : Obligations.ParseCrcByte := by
  unfold Obligations.ParseCrcByte
  intro s b hf hm hp hc
  have hmore : s.regs.cnt ≠ 3#32 := fun h => by simp [h] at hc
  have heffect := (push_in_parse b hf hm).trans (pushParse_of_crc b hp)
  exact exec_of_effectOf (i := .push b) (heffect.trans (pushReceivedCrc_of_not_last b hmore))

/-- Settles O41: every other PUSH lets the parse go on, and the fourth CRC byte is `finishParse`, by its three ends. -/
theorem parseCompletion : Obligations.ParseCompletion := by
  unfold Obligations.ParseCompletion
  intro s b hf hm
  have heffect := push_in_parse b hf hm
  refine ⟨fun h t ht => ?_, fun hp hc => ?_⟩
  · obtain rfl := (exec_next_iff (.push b) s t).mp ht
    obtain ⟨r', he, hk⟩ := pushParse_goesOn b h
    have he' : effectOf (.push b) s.regs = proceed r' := heffect.trans he
    exact ⟨by simp [he', hk.mode, hm], by simp [he']⟩
  · have hend := heffect.trans (pushParse_of_fourthCrc b hp hc)
    refine ⟨fun hbad => ?_, fun hok hne => ?_, fun hok heq => ?_⟩
    · exact exec_of_effectOf (i := .push b) (hend.trans (finishParse_of_badType hbad))
    · exact exec_of_effectOf (i := .push b) (hend.trans (finishParse_of_mismatch hok hne))
    · exact exec_of_effectOf (i := .push b) (hend.trans (finishParse_of_match hok heq))

/-- Settles O42: END in mode PARSE is `endParse`, whatever the phase, the count and `TBAD`. -/
theorem parseEnd : Obligations.ParseEnd := by
  unfold Obligations.ParseEnd
  refine ⟨decode_zeroForm_iff (op := .endInput) rfl, fun s hf hm => ?_⟩
  exact exec_of_effectOf (i := .endInput) (end_in_parse hf hm)

end Sys2Proof.Machine
end

section
/-! The two answers of RD, by its register number (R49, R166). -/

namespace Sys2Proof.Machine

/-- The flag behind a view; STATUS has none and may always be read (R26 to R30). -/
def View.flag : View → Regs → Bool
  | .status, _ => true
  | .len, r => r.valid
  | .type, r => r.tvalid
  | .crcOut, r => r.cvalid
  | .props, r => r.tvalid

/-- The value of a view where it may be read (R26 to R30). -/
def View.value : View → Regs → Word
  | .status, r => statusWord r
  | .len, r => r.len
  | .type, r => r.type
  | .crcOut, r => r.crc ^^^ 0xFFFFFFFF#32
  | .props, r => propsWord r.type

theorem readView_eq_ite (v : View) (r : Regs) : readView v r = if v.flag r then some (v.value r) else none := by
  cases v <;> rfl

theorem decodeRegnum_of_le {n : Word} (h : n.toNat ≤ 4) : decodeRegnum n = .ok (.rd n) := if_pos h

variable {n : Word} {v : View} {s : State}

/-- A view that may be read is answered with its value, all registers and OUT as they were. -/
theorem exec_rd_of_readable (hv : viewOf n = some v) (hflag : v.flag s.regs = true) (hf : s.regs.fault = false ∨ n = 0#32) :
    exec (.rd n) s = .next (s.after s.regs .ok false (v.value s.regs) []) := by
  have hx : readView v s.regs = some (v.value s.regs) := by rw [readView_eq_ite, if_pos hflag]
  exact exec_of_effectOf (i := .rd n) (rdEffect_of_readable hv hx hf)

/-- A view other than STATUS is refused under `FAULT`, and where its flag is 0. -/
theorem exec_rd_of_refused (hn : n ≠ 0#32) (hv : viewOf n = some v) (h : s.regs.fault = true ∨ v.flag s.regs = false) :
    exec (.rd n) s = .next s.afterIllegal := by
  refine exec_of_illegal (i := .rd n) ?_
  obtain hf | hflag := h
  · exact rdEffect_of_faulted hf hn
  · exact rdEffect_of_unreadable hv (by simp [readView_eq_ite, hflag])

end Sys2Proof.Machine
end

section
/-! The obligations on NOP, CLR and RD. -/

namespace Sys2Proof.Machine

/-- Settles O14: NOP is `proceed` behind the fault gate. -/
theorem nopChangesNothing : Obligations.NopChangesNothing := by
  unfold Obligations.NopChangesNothing
  refine ⟨decode_zeroForm_iff (op := .nop) rfl, fun s => ⟨fun hf => ?_, fun hf => ?_⟩⟩
  · exact exec_of_effectOf (i := .nop) (s := s) (unlessFaulted_of_clear proceed hf)
  · exact exec_of_illegal (i := .nop) (unlessFaulted_of_faulted proceed hf)

/-- Settles O15: CLR has no fault gate, and its one effect is that of `Regs.reset` in every state. -/
theorem clearResetsEveryRegister : Obligations.ClearResetsEveryRegister := by
  unfold Obligations.ClearResetsEveryRegister
  refine ⟨decode_zeroForm_iff (op := .clr) rfl, fun s => ?_⟩
  exact exec_of_effectOf (i := .clr) (e := proceed Regs.reset) rfl

/-- Settles O16: STATUS is always readable, each other view behind the fault gate and its flag, and no view has a number above 4. -/
theorem readAnswersOnlyReadableViews : Obligations.ReadAnswersOnlyReadableViews := by
  unfold Obligations.ReadAnswersOnlyReadableViews
  refine ⟨fun n hn => (decode_append .rd n).trans (decodeRegnum_of_le hn), fun s => ?_⟩
  refine ⟨?status, fun hf h => ?len, fun hf h => ?type, fun hf h => ?crcOut, fun hf h => ?props,
    fun h => ?noLen, fun h => ?noType, fun h => ?noCrcOut, fun h => ?noProps, fun n hn => ?reserved⟩
  case status => exact exec_rd_of_readable (v := .status) rfl rfl (.inr rfl)
  case len => exact exec_rd_of_readable (v := .len) rfl h (.inl hf)
  case type => exact exec_rd_of_readable (v := .type) rfl h (.inl hf)
  case crcOut => exact exec_rd_crcOut hf h
  case props => exact exec_rd_of_readable (v := .props) rfl h (.inl hf)
  case noLen => exact exec_rd_of_refused (v := .len) (by decide) rfl h
  case noType => exact exec_rd_of_refused (v := .type) (by decide) rfl h
  case noCrcOut => exact exec_rd_of_refused (v := .crcOut) (by decide) rfl h
  case noProps => exact exec_rd_of_refused (v := .props) (by decide) rfl h
  case reserved => exact exec_of_illegal (i := .rd n) (rdEffect_of_reserved hn s.regs)

end Sys2Proof.Machine
end

section
/-! Lookup by type and removal of the first match, with and without one (R185, R186). -/

namespace Sys2Proof.Machine

variable {before after : List Chunk} {c : Chunk} {p : Png} {t : List Byte}

theorem chunkByType_of_firstMatch (h : ∀ x ∈ before, x.type ≠ c.type) :
    chunkByType ⟨before ++ c :: after⟩ c.type = some c :=
  List.find?_eq_some_iff_append.mpr ⟨by simp, before, after, rfl, fun x hx => by simpa using h x hx⟩

theorem chunkByType_eq_none_iff : chunkByType p t = none ↔ ∀ x ∈ p.chunks, x.type ≠ t := by
  simp [chunkByType]

theorem eraseP_type_of_firstMatch (h : ∀ x ∈ before, x.type ≠ c.type) :
    (before ++ c :: after).eraseP (fun x => x.type == c.type) = before ++ after := by
  have hpass : ∀ x ∈ before, ¬ (x.type == c.type) = true := fun x hx => by simpa using h x hx
  rw [List.eraseP_append_right _ hpass, List.eraseP_cons_of_pos (by simp)]

theorem removeFirstChunk_of_some (h : chunkByType p t = some c) :
    removeFirstChunk p t = .ok (c, ⟨p.chunks.eraseP (fun x => x.type == t)⟩) := by
  simp only [removeFirstChunk, h]

theorem removeFirstChunk_of_none (h : chunkByType p t = none) : removeFirstChunk p t = .error .chunkNotFound := by
  simp only [removeFirstChunk, h]

/-- Settles O60: lookup finds the first match, `eraseP` removes that one, and the lookup is empty just where nothing matches. -/
theorem removalTakesTheFirstMatch : Obligations.RemovalTakesTheFirstMatch := by
  unfold Obligations.RemovalTakesTheFirstMatch
  refine ⟨fun before after c h => ?_, fun p t h => ?_⟩
  · rw [removeFirstChunk_of_some (chunkByType_of_firstMatch h), eraseP_type_of_firstMatch h]
  · exact removeFirstChunk_of_none (chunkByType_eq_none_iff.mpr h)

end Sys2Proof.Machine
end

section
/-! Encoding and decoding are inverse on well-formed commands, and the legal words by their fields (R62, R63, R68). -/

namespace Sys2Proof

open Sys2Proof.Machine

/-- A byte operand is the byte with zeros above it. -/
theorem setWidth_eq_append (b : Byte) : b.setWidth 32 = 0#24 ++ b := by
  have happend : (0#24 ++ b).toNat = b.toNat := by rw [BitVec.toNat_append]; simp
  have hb : b.toNat < 4294967296 := by omega
  exact BitVec.eq_of_toNat_eq (by rw [happend]; simpa using hb)

theorem wellFormed_rd_iff {n : Word} : (Instr.rd n).WellFormed ↔ n.toNat ≤ 4 := decide_eq_true_iff

/-- The operand of a well-formed command is in the form of its opcode (R63). -/
theorem decodeOperand_fields {i : Instr} (h : i.WellFormed) : decodeOperand i.opcode i.operand = .ok i := by
  cases i with
  | push b => exact (congrArg decodeByte (setWidth_eq_append b)).trans (decodeByte_append b)
  | rd n => exact decodeRegnum_of_le (wellFormed_rd_iff.mp h)
  | _ => rfl

theorem decode_encode {i : Instr} (h : i.WellFormed) : decode (encode i) = .ok i :=
  (decode_append i.opcode i.operand).trans (decodeOperand_fields h)

/-- The decoder lets no reserved register number through (R64). -/
theorem wellFormed_of_decodeOperand {op : Opcode} {opr : Word} {i : Instr} (h : decodeOperand op opr = .ok i) : i.WellFormed := by
  obtain ⟨rfl, rfl⟩ := fields_of_decodeOperand h
  cases i with
  | rd n =>
    simp only [decodeOperand, Instr.opcode, decodeRegnum] at h
    split at h
    · exact wellFormed_rd_iff.mpr ‹n.toNat ≤ 4›
    · cases h
  | _ => rfl

theorem wellFormed_of_decode {w : CmdWord} {i : Instr} (h : decode w = .ok i) : i.WellFormed := by
  unfold decode at h
  split at h
  case h_1 => cases h
  case h_2 => exact wellFormed_of_decodeOperand h

/-- A word decodes exactly when its fields are those of a well-formed command. -/
theorem exists_decode_append_iff (opc : BitVec 8) (opr : Word) :
    (∃ i, decode (opc ++ opr) = .ok i) ↔ ∃ i : Instr, i.WellFormed ∧ i.opcode.code = opc ∧ i.operand = opr := by
  constructor
  · rintro ⟨i, h⟩
    exact ⟨i, wellFormed_of_decode h, fields_of_decode h⟩
  · rintro ⟨i, h, rfl, rfl⟩
    exact ⟨i, decode_encode h⟩

/-- The opcodes of form zero are those of the six commands without an operand. -/
theorem exists_of_zeroForm {opc : BitVec 8} (h : opc ∈ zeroFormOpcodes) :
    ∃ i : Instr, i.WellFormed ∧ i.opcode.code = opc ∧ i.operand = 0#32 := by
  simp only [zeroFormOpcodes, List.mem_cons, List.not_mem_nil, or_false] at h
  obtain rfl | rfl | rfl | rfl | rfl | rfl := h
  · exact ⟨.nop, rfl, rfl, rfl⟩
  · exact ⟨.clr, rfl, rfl, rfl⟩
  · exact ⟨.crcs, rfl, rfl, rfl⟩
  · exact ⟨.typs, rfl, rfl, rfl⟩
  · exact ⟨.prss, rfl, rfl, rfl⟩
  · exact ⟨.endInput, rfl, rfl, rfl⟩

/-- An operand that fits a byte is the operand of the PUSH of its low byte. -/
theorem operand_push_low {opr : Word} (h : opr.toNat ≤ 0xFF) : (Instr.push (opr.setWidth 8)).operand = opr := by
  apply BitVec.eq_of_toNat_eq
  have hlow : opr.toNat % 256 = opr.toNat := by omega
  simpa [Instr.operand, hlow] using opr.isLt

end Sys2Proof
end

section
/-! The obligations on the encoding and the decoder. -/

namespace Sys2Proof

open Sys2Proof.Machine

/-- Settles O2: the opcode map is inverted, and then the operand in the form of its opcode. -/
theorem encodedCommandDecodesBack : Obligations.EncodedCommandDecodesBack := by
  unfold Obligations.EncodedCommandDecodesBack
  exact fun _ => decode_encode

/-- Settles O3: the decoder loses no field of the word and tests the register number. -/
theorem decodedWordIsTheEncoding : Obligations.DecodedWordIsTheEncoding := by
  unfold Obligations.DecodedWordIsTheEncoding
  exact fun w i h => ⟨wellFormed_of_decode h, encode_of_decode h⟩

/-- Settles O4: the legal words are those of the well-formed commands, form by form. -/
theorem decodesExactlyLegalWords : Obligations.DecodesExactlyLegalWords := by
  unfold Obligations.DecodesExactlyLegalWords
  intro opc opr
  rw [exists_decode_append_iff]
  constructor
  · rintro ⟨i, hwf, rfl, rfl⟩
    cases i with
    | blds n => exact .inr (.inr (.inl rfl))
    | push b => exact .inr (.inl ⟨rfl, operand_push_le b⟩)
    | rd n => exact .inr (.inr (.inr ⟨rfl, wellFormed_rd_iff.mp hwf⟩))
    | _ => exact .inl ⟨by decide, rfl⟩
  · rintro (⟨hopc, rfl⟩ | ⟨rfl, hopr⟩ | rfl | ⟨rfl, hopr⟩)
    · exact exists_of_zeroForm hopc
    · exact ⟨.push (opr.setWidth 8), rfl, rfl, operand_push_low hopr⟩
    · exact ⟨.blds opr, rfl, rfl, rfl⟩
    · exact ⟨.rd opr, wellFormed_rd_iff.mpr hopr, rfl, rfl⟩

/-- Settles O1: each written-out word is the encoding of its command. -/
theorem writtenWordsDecode : Obligations.WrittenWordsDecode := by
  unfold Obligations.WrittenWordsDecode
  exact ⟨decode_encode (i := .nop) rfl, decode_encode (i := .clr) rfl, decode_encode (i := .crcs) rfl, decode_encode (i := .typs) rfl,
    decode_encode (i := .prss) rfl, decode_encode (i := .blds 5#32) rfl, decode_encode (i := .push 0x72#8) rfl,
    decode_encode (i := .endInput) rfl, decode_encode (i := .rd 3#32) rfl⟩

end Sys2Proof

namespace Sys2Proof.Machine

/-- Settles O6: the port hands the word over, and the step dispatches on its decoding. -/
theorem stepRunsTheDecodedCommand : Obligations.StepRunsTheDecodedCommand := by
  unfold Obligations.StepRunsTheDecodedCommand
  intro s w rest i hw hd
  rw [step_of_cons hw, exec_eq_commit, blockStep, hd]

/-- Settles O7: a word that is no command is refused (R207). -/
theorem stepRefusesAWordThatIsNoCommand : Obligations.StepRefusesAWordThatIsNoCommand := by
  unfold Obligations.StepRefusesAWordThatIsNoCommand
  intro s w rest e hw hd
  have hrefused : blockStep w s.regs = illegal s.regs := by rw [blockStep, hd]
  rw [step_of_cons hw, hrefused]
  exact congrArg Host.Outcome.next (commit_illegal { s with commands := rest })

/-- Settles O8: the port is empty. -/
theorem stepWithoutACommandWaits : Obligations.StepWithoutACommandWaits := by
  unfold Obligations.StepWithoutACommandWaits
  exact fun _ => step_of_nil

/-- Settles O13: the reset values are R33's, and no word is pending at reset. -/
theorem resetLeaves : Obligations.ResetLeaves := by
  unfold Obligations.ResetLeaves
  refine ⟨rfl, rfl, rfl, rfl, rfl, rfl, rfl, rfl, rfl, rfl, rfl, rfl, rfl, rfl, rfl, step_of_nil rfl⟩

/-- Settles O19: both are refused by the dispatch on `MODE`, faulted or not. -/
theorem nothingToPushOrEndInIdle : Obligations.NothingToPushOrEndInIdle := by
  unfold Obligations.NothingToPushOrEndInIdle
  intro s b hm
  exact ⟨exec_of_illegal (i := .push b) (pushEffect_of_idle b hm),
    exec_of_illegal (i := .endInput) (endEffect_of_idle_or_build (.inl hm))⟩

end Sys2Proof.Machine
end

section
/-! Everything a command can do, said once: refused as listed (R65, R207), or accepted with the effect of one of its rules.
The obligations on what every command writes, emits and keeps are case splits on it. -/

namespace Sys2Proof.Machine

/-- The effects of a command on the registers `r`, each with the condition under which it occurs. -/
inductive CommandOutcome (r : Regs) : Instr → Effect → Prop where
  /-- R207. -/
  | refused (i : Instr) (h : ListedIllegal i.opcode.code i.operand r) : CommandOutcome r i (illegal r)
  /-- R162. -/
  | clr : CommandOutcome r .clr (proceed Regs.reset)
  /-- R161. -/
  | nop (hf : r.fault = false) : CommandOutcome r .nop (proceed r)
  /-- R166. -/
  | rd (n x : Word) (v : View) (hf : r.fault = false ∨ n = 0#32) (hv : viewOf n = some v) (hx : readView v r = some x) :
      CommandOutcome r (.rd n) (answer x r)
  /-- R85. -/
  | crcs (hf : r.fault = false) (hm : r.mode = .idle) :
      CommandOutcome r .crcs (proceed { r with mode := .crc, crc := crcInitial, cvalid := false, valid := false, err := .ok })
  /-- R102. -/
  | typs (hf : r.fault = false) (hm : r.mode = .idle) :
      CommandOutcome r .typs (proceed
        { r with mode := .type, cnt := 0#32, type := 0#32, tbad := false, tvalid := false, valid := false, err := .ok })
  /-- R137. -/
  | prss (hf : r.fault = false) (hm : r.mode = .idle) :
      CommandOutcome r .prss (proceed
        { r with mode := .parse, ph := .len, cnt := 0#32, len := 0#32, type := 0#32, rcrc := 0#32, crc := crcInitial,
                 tbad := false, valid := false, tvalid := false, cvalid := false, err := .ok })
  /-- R122, nothing to push. -/
  | bldsEmpty (hf : r.fault = false) (hm : r.mode = .idle) (ht : r.tvalid = true) :
      CommandOutcome r (.blds 0#32)
        (emit (be32 0#32 ++ be32 r.type ++ be32 (crcFinish (crcOver crcInitial (be32 r.type))))
          (complete { r with len := 0#32, cnt := 0#32, crc := crcOver crcInitial (be32 r.type), err := .ok, valid := true,
                             cvalid := true }))
  /-- R122, data to come. -/
  | blds (n : Word) (hf : r.fault = false) (hm : r.mode = .idle) (ht : r.tvalid = true) (hn : n ≠ 0#32) :
      CommandOutcome r (.blds n)
        (emit (be32 n ++ be32 r.type)
          (proceed { r with len := n, cnt := 0#32, crc := crcOver crcInitial (be32 r.type), err := .ok, valid := false,
                            cvalid := false, mode := .build, ph := .dat }))
  /-- R86. -/
  | crcPush (b : Byte) (hf : r.fault = false) (hm : r.mode = .crc) :
      CommandOutcome r (.push b) (proceed { r with crc := crcUpdate r.crc b })
  /-- R87. -/
  | crcEnd (hf : r.fault = false) (hm : r.mode = .crc) :
      CommandOutcome r .endInput (complete { r with mode := .idle, cvalid := true })
  /-- R104, one of the four bytes. -/
  | typePush (b : Byte) (hf : r.fault = false) (hm : r.mode = .type) (hc : r.cnt ≠ 4#32) :
      CommandOutcome r (.push b) (proceed
        { r with type := shiftIn r.type b, tbad := r.tbad || !isLetter b, cnt := r.cnt + 1#32 })
  /-- R104, one byte too many. -/
  | typeExcess (b : Byte) (hf : r.fault = false) (hm : r.mode = .type) (hc : r.cnt = 4#32) :
      CommandOutcome r (.push b) (proceed { r with tbad := true })
  /-- R108, four letters. -/
  | typeEnd (hf : r.fault = false) (hm : r.mode = .type) (hc : r.cnt = 4#32) (hb : r.tbad = false) :
      CommandOutcome r .endInput (complete { r with tvalid := true, mode := .idle, cnt := 0#32 })
  /-- R108, anything else. -/
  | typeEndBad (hf : r.fault = false) (hm : r.mode = .type) (hc : ¬ (r.cnt = 4#32 ∧ r.tbad = false)) :
      CommandOutcome r .endInput
        ⟨{ r with tvalid := false, err := .invalidTypeBytes, mode := .idle, cnt := 0#32 }, ⟨.invalidTypeBytes, true, 0#32⟩, []⟩
  /-- R140. -/
  | lenPush (b : Byte) (hf : r.fault = false) (hm : r.mode = .parse) (hp : r.ph = .len) (hc : r.cnt ≠ 3#32) :
      CommandOutcome r (.push b) (proceed { r with len := shiftIn r.len b, cnt := r.cnt + 1#32 })
  /-- R140, the fourth byte. -/
  | lenLast (b : Byte) (hf : r.fault = false) (hm : r.mode = .parse) (hp : r.ph = .len) (hc : r.cnt = 3#32) :
      CommandOutcome r (.push b) (proceed { r with len := shiftIn r.len b, ph := .typ, cnt := 0#32 })
  /-- R141. -/
  | typPush (b : Byte) (hf : r.fault = false) (hm : r.mode = .parse) (hp : r.ph = .typ) (hc : r.cnt ≠ 3#32) :
      CommandOutcome r (.push b) (proceed
        { r with type := shiftIn r.type b, crc := crcUpdate r.crc b, tbad := r.tbad || !isLetter b, cnt := r.cnt + 1#32 })
  /-- R141, the fourth byte. -/
  | typLast (b : Byte) (hf : r.fault = false) (hm : r.mode = .parse) (hp : r.ph = .typ) (hc : r.cnt = 3#32) :
      CommandOutcome r (.push b) (proceed
        { r with type := shiftIn r.type b, crc := crcUpdate r.crc b, tbad := r.tbad || !isLetter b, cnt := 0#32,
                 ph := if r.len = 0#32 then .crc else .dat })
  /-- R142. -/
  | datPush (b : Byte) (hf : r.fault = false) (hm : r.mode = .parse) (hp : r.ph = .dat) (hc : r.cnt + 1#32 ≠ r.len) :
      CommandOutcome r (.push b) (proceed { r with crc := crcUpdate r.crc b, cnt := r.cnt + 1#32 })
  /-- R142, the last byte. -/
  | datLast (b : Byte) (hf : r.fault = false) (hm : r.mode = .parse) (hp : r.ph = .dat) (hc : r.cnt + 1#32 = r.len) :
      CommandOutcome r (.push b) (proceed { r with crc := crcUpdate r.crc b, ph := .crc, cnt := 0#32 })
  /-- R143. -/
  | crcField (b : Byte) (hf : r.fault = false) (hm : r.mode = .parse) (hp : r.ph = .crc) (hc : r.cnt ≠ 3#32) :
      CommandOutcome r (.push b) (proceed { r with rcrc := shiftIn r.rcrc b, cnt := r.cnt + 1#32 })
  /-- R145, a type byte was refused. -/
  | crcBadType (b : Byte) (hf : r.fault = false) (hm : r.mode = .parse) (hp : r.ph = .crc) (hc : r.cnt = 3#32)
      (hb : r.tbad = true) :
      CommandOutcome r (.push b) (terminate .invalidTypeBytes { r with rcrc := shiftIn r.rcrc b })
  /-- R145, the CRC differs. -/
  | crcDiffers (b : Byte) (hf : r.fault = false) (hm : r.mode = .parse) (hp : r.ph = .crc) (hc : r.cnt = 3#32)
      (hb : r.tbad = false) (hr : shiftIn r.rcrc b ≠ crcFinish r.crc) :
      CommandOutcome r (.push b) (terminate .crcMismatch { r with rcrc := shiftIn r.rcrc b })
  /-- R145, a whole chunk. -/
  | crcEqual (b : Byte) (hf : r.fault = false) (hm : r.mode = .parse) (hp : r.ph = .crc) (hc : r.cnt = 3#32)
      (hb : r.tbad = false) (hr : shiftIn r.rcrc b = crcFinish r.crc) :
      CommandOutcome r (.push b) (complete
        { r with rcrc := shiftIn r.rcrc b, mode := .idle, ph := .len, cnt := 0#32, valid := true, tvalid := true, cvalid := true })
  /-- R146. -/
  | parseEnd (hf : r.fault = false) (hm : r.mode = .parse) :
      CommandOutcome r .endInput (terminate .insufficientData r)
  /-- R124. -/
  | buildPush (b : Byte) (hf : r.fault = false) (hm : r.mode = .build) (hc : r.cnt + 1#32 ≠ r.len) :
      CommandOutcome r (.push b) (emit [b] (proceed { r with crc := crcUpdate r.crc b, cnt := r.cnt + 1#32 }))
  /-- R124, the last byte. -/
  | buildLast (b : Byte) (hf : r.fault = false) (hm : r.mode = .build) (hc : r.cnt + 1#32 = r.len) :
      CommandOutcome r (.push b)
        (emit (b :: be32 (crcFinish (crcUpdate r.crc b)))
          (complete { r with crc := crcUpdate r.crc b, mode := .idle, ph := .len, cnt := 0#32, valid := true, cvalid := true }))

namespace CommandOutcome

variable {r : Regs}

theorem of_eq {i : Instr} {e e' : Effect} (h : e' = e) (ho : CommandOutcome r i e) : CommandOutcome r i e' := h ▸ ho

theorem of_startBuild (n : Word) (hf : r.fault = false) (hm : r.mode = .idle) (ht : r.tvalid = true) :
    CommandOutcome r (.blds n) (startBuild n r) := by
  by_cases hn : n = 0#32
  · subst hn
    exact .bldsEmpty hf hm ht
  · rw [startBuild_of_ne_zero hn]
    exact .blds n hf hm ht hn

theorem of_pushType (b : Byte) (hf : r.fault = false) (hm : r.mode = .type) : CommandOutcome r (.push b) (pushType b r) := by
  unfold pushType
  split
  · exact .typeExcess b hf hm ‹_›
  · exact .typePush b hf hm ‹_›

theorem of_endType (hf : r.fault = false) (hm : r.mode = .type) : CommandOutcome r .endInput (endType r) := by
  unfold endType
  split
  case isTrue h => exact .typeEnd hf hm h.1 h.2
  case isFalse h => exact .typeEndBad hf hm h

/-- The three ends of a parse, by the test of the type and then of the CRC. -/
theorem of_finishParse (b : Byte) (hf : r.fault = false) (hm : r.mode = .parse) (hp : r.ph = .crc) (hc : r.cnt = 3#32) :
    CommandOutcome r (.push b) (finishParse { r with rcrc := shiftIn r.rcrc b }) := by
  obtain ⟨hb, he⟩ | ⟨hb, hr, he⟩ | ⟨hb, hr, he⟩ := finishParse_cases { r with rcrc := shiftIn r.rcrc b } <;> rw [he]
  · exact .crcBadType b hf hm hp hc hb
  · exact .crcDiffers b hf hm hp hc hb hr
  · exact .crcEqual b hf hm hp hc hb hr

theorem of_pushParse (b : Byte) (hf : r.fault = false) (hm : r.mode = .parse) : CommandOutcome r (.push b) (pushParse b r) := by
  cases hp : r.ph with
  | len =>
    rw [pushParse_of_len b hp, pushLength]
    split
    · exact .lenLast b hf hm hp ‹_›
    · exact .lenPush b hf hm hp ‹_›
  | typ =>
    rw [pushParse_of_typ b hp, pushTypeField]
    split
    · exact .typLast b hf hm hp ‹_›
    · exact .typPush b hf hm hp ‹_›
  | dat =>
    rw [pushParse_of_dat b hp, pushData]
    split
    · exact .datLast b hf hm hp ‹_›
    · exact .datPush b hf hm hp ‹_›
  | crc =>
    rw [pushParse_of_crc b hp, pushReceivedCrc]
    split
    · exact .of_finishParse b hf hm hp ‹_›
    · exact .crcField b hf hm hp ‹_›

theorem of_pushBuild (b : Byte) (hf : r.fault = false) (hm : r.mode = .build) : CommandOutcome r (.push b) (pushBuild b r) := by
  unfold pushBuild
  split
  · exact .buildLast b hf hm ‹_›
  · exact .buildPush b hf hm ‹_›

theorem of_push (b : Byte) (hf : r.fault = false) (hbusy : r.mode ≠ .idle) : CommandOutcome r (.push b) (pushEffect b r) := by
  cases hm : r.mode with
  | idle => exact absurd hm hbusy
  | crc => exact .of_eq (push_in_crc b hf hm) (.crcPush b hf hm)
  | type => exact .of_eq (push_in_type b hf hm) (.of_pushType b hf hm)
  | parse => exact .of_eq (push_in_parse b hf hm) (.of_pushParse b hf hm)
  | build => exact .of_eq (push_in_build b hf hm) (.of_pushBuild b hf hm)

theorem of_end (hf : r.fault = false) (hbusy : r.mode ≠ .idle) (hbuild : r.mode ≠ .build) :
    CommandOutcome r .endInput (endEffect r) := by
  cases hm : r.mode with
  | idle => exact absurd hm hbusy
  | crc => exact .of_eq (end_in_crc hf hm) (.crcEnd hf hm)
  | type => exact .of_eq (end_in_type hf hm) (.of_endType hf hm)
  | parse => exact .of_eq (end_in_parse hf hm) (.parseEnd hf hm)
  | build => exact absurd hm hbuild

/-- What is not listed passes the gates of its command. -/
theorem of_not_listed {i : Instr} (h : ¬ ListedIllegal i.opcode.code i.operand r) : CommandOutcome r i (effectOf i r) := by
  have unfaulted (hclr : i ≠ .clr) (hrd : ∀ n, i ≠ .rd n) : r.fault = false := by
    by_contra hf
    refine h (.faulted (by simpa using hf) (fun ⟨hc, _⟩ => ?_) (fun ⟨hc, _⟩ => hrd _ (eq_rd_of_code hc)))
    cases i with
    | clr => exact hclr rfl
    | _ => simp [Instr.opcode, Opcode.code] at hc
  cases i with
  | nop =>
    have hf := unfaulted nofun nofun
    exact .of_eq (unlessFaulted_of_clear proceed hf) (.nop hf)
  | clr => exact .clr
  | crcs =>
    have hf := unfaulted nofun nofun
    have hm := idle_of_not_listed h (by decide)
    exact .of_eq (start_of_idle startCrc hf hm) (.crcs hf hm)
  | typs =>
    have hf := unfaulted nofun nofun
    have hm := idle_of_not_listed h (by decide)
    exact .of_eq (start_of_idle startType hf hm) (.typs hf hm)
  | prss =>
    have hf := unfaulted nofun nofun
    have hm := idle_of_not_listed h (by decide)
    exact .of_eq (start_of_idle startParse hf hm) (.prss hf hm)
  | blds n =>
    have hf := unfaulted nofun nofun
    have hm := idle_of_not_listed h (by simp [Instr.opcode, Opcode.code])
    have ht : r.tvalid = true := by
      by_contra ht
      exact h (.noType rfl (by simpa using ht))
    exact .of_eq (blds_of_idle_loaded n hf hm ht) (.of_startBuild n hf hm ht)
  | push b => exact .of_push b (unfaulted nofun nofun) fun hm => h (.pushInIdle rfl hm)
  | endInput =>
    exact .of_end (unfaulted nofun nofun) (fun hm => h (.endInIdleOrBuild rfl (.inl hm)))
      fun hm => h (.endInIdleOrBuild rfl (.inr hm))
  | rd n =>
    have hf : r.fault = false ∨ n = 0#32 := by
      by_cases hn : n = 0#32
      · exact .inr hn
      · exact .inl (fault_false_of_not_listed h (by simp [Instr.opcode, Opcode.code]) (by simp [Instr.operand, hn]))
    obtain ⟨v, x, hv, hx, he⟩ := rdEffect_of_not_listed h
    exact .of_eq he (.rd n x v hf hv hx)

end CommandOutcome

theorem effectOf_outcome (i : Instr) (r : Regs) : CommandOutcome r i (effectOf i r) := by
  by_cases h : ListedIllegal i.opcode.code i.operand r
  · rw [effectOf_of_listed h]
    exact .refused i h
  · exact .of_not_listed h

/-- A word has the outcome of the command it decodes to, or is none and refused. -/
theorem blockStep_outcome (w : CmdWord) (r : Regs) :
    blockStep w r = illegal r ∨ ∃ i, decode w = .ok i ∧ CommandOutcome r i (blockStep w r) := by
  unfold blockStep
  split
  case h_1 i hd => exact .inr ⟨i, hd, effectOf_outcome i r⟩
  case h_2 => exact .inl rfl

end Sys2Proof.Machine
end

section
/-! The invariant of the registers (R25, R15, R23): what it asks of an unfaulted block in each mode, and that every command keeps it. -/

namespace Sys2Proof.Machine

variable {r : Regs}

/-! The letters held by a packed type. -/

/-- A packed type holds four letters exactly when each of its bytes is one. -/
theorem lettersHeld_four_iff {w : Word} : LettersHeld 4 w ↔ ∀ k < 4, isLetter (typeByte w k) = true := by
  simp only [LettersHeld, typeByte]
  constructor <;>
    (intro h k hk
     interval_cases k
     · exact h 3 (by decide)
     · exact h 2 (by decide)
     · exact h 1 (by decide)
     · exact h 0 (by decide))

theorem lettersHeld_zero (w : Word) : LettersHeld 0 w := nofun

/-- One more letter is shifted in. -/
theorem LettersHeld.shiftIn {n : Nat} {w : Word} (h : LettersHeld n w) (hn : n < 4) {b : Byte} (hb : isLetter b = true) :
    LettersHeld (n + 1) (shiftIn w b) := by
  intro k hk
  cases k with
  | zero => rwa [Nat.mul_zero, shiftIn_low]
  | succ k =>
    rw [shiftIn_next w b k (by omega)]
    exact h k (by omega)

/-- With `TBAD` still 0 after a byte, the byte is a letter and so are those before it (R23). -/
theorem LettersHeld.shiftIn_of_tbad {n : Nat} {w : Word} {tbad : Bool} {b : Byte} (h : tbad = false → LettersHeld n w) (hn : n < 4)
    (hb : (tbad || !isLetter b) = false) : LettersHeld (n + 1) (Machine.shiftIn w b) := by
  rw [Bool.or_eq_false_iff, Bool.not_eq_false'] at hb
  exact (h hb.1).shiftIn hn hb.2

/-! Counts below a bound do not wrap (R15). -/

theorem count_lt {c l : Word} (h : c.toNat ≤ l.toNat) (hne : c ≠ l) : c.toNat < l.toNat := by bv_omega

theorem count_add_one_le {c l : Word} (h : c.toNat ≤ l.toNat) (hne : c ≠ l) : (c + 1#32).toNat ≤ l.toNat := by bv_omega

theorem count_add_one_lt {c l : Word} (h : c.toNat < l.toNat) (hne : c + 1#32 ≠ l) : (c + 1#32).toNat < l.toNat := by bv_omega

/-! The invariant of an unfaulted block, mode by mode. -/

/-- Idle: no position in any operation, and the flags describe what is held. -/
structure IdleInv (r : Regs) : Prop where
  mode : r.mode = .idle
  ph : r.ph = .len
  cnt : r.cnt = 0#32
  err : r.err ∈ [Status.ok, .invalidTypeBytes, .insufficientData, .crcMismatch]
  valid : r.valid = true → r.err = .ok ∧ r.tvalid = true ∧ r.cvalid = true
  letters : r.tvalid = true → LettersHeld 4 r.type

/-- In a standalone CRC. -/
structure CrcInv (r : Regs) : Prop where
  mode : r.mode = .crc
  ph : r.ph = .len
  cnt : r.cnt = 0#32
  err : r.err = .ok
  valid : r.valid = false
  cvalid : r.cvalid = false
  letters : r.tvalid = true → LettersHeld 4 r.type

/-- In a type load. -/
structure TypeInv (r : Regs) : Prop where
  mode : r.mode = .type
  ph : r.ph = .len
  cnt : r.cnt.toNat ≤ 4
  err : r.err = .ok
  valid : r.valid = false
  tvalid : r.tvalid = false
  letters : r.tbad = false → LettersHeld r.cnt.toNat r.type

/-- In a build. -/
structure BuildInv (r : Regs) : Prop where
  mode : r.mode = .build
  ph : r.ph = .dat
  cnt : r.cnt.toNat < r.len.toNat
  err : r.err = .ok
  valid : r.valid = false
  tvalid : r.tvalid = true
  cvalid : r.cvalid = false
  letters : LettersHeld 4 r.type

/-- In a parse. -/
structure ParseInv (r : Regs) : Prop where
  mode : r.mode = .parse
  err : r.err = .ok
  valid : r.valid = false
  tvalid : r.tvalid = false
  cvalid : r.cvalid = false
  fields : r.ph ≠ .dat → r.cnt.toNat ≤ 3
  data : r.ph = .dat → r.cnt.toNat < r.len.toNat
  typeField : r.ph = .typ → r.tbad = false → LettersHeld r.cnt.toNat r.type
  typeDone : r.ph = .dat ∨ r.ph = .crc → r.tbad = false → LettersHeld 4 r.type

/-! With the mode known, each field of R25 and R15 is one of the facts above, or its premise is about another mode. -/

theorem IdleInv.blockInv (h : IdleInv r) (hf : r.fault = false) : BlockInv r := by
  obtain ⟨hm, hp, hc, he, hv, hl⟩ := h
  rw [lettersHeld_four_iff] at hl
  have herr : r.err ≠ .illegalCommand := fun h => by simp [h] at he
  have hinvalid : r.err ≠ .ok → r.valid = false := fun he => by
    by_contra hvalid
    exact he (hv (by simpa using hvalid)).1
  constructor <;> constructor <;> simp_all

theorem CrcInv.blockInv (h : CrcInv r) (hf : r.fault = false) : BlockInv r := by
  obtain ⟨hm, hp, hc, he, hv, hcv, hl⟩ := h
  rw [lettersHeld_four_iff] at hl
  constructor <;> constructor <;> simp_all

theorem TypeInv.blockInv (h : TypeInv r) (hf : r.fault = false) : BlockInv r := by
  obtain ⟨hm, hp, hc, he, hv, htv, hl⟩ := h
  constructor <;> constructor <;> simp_all

theorem BuildInv.blockInv (h : BuildInv r) (hf : r.fault = false) : BlockInv r := by
  obtain ⟨hm, hp, hc, he, hv, htv, hcv, hl⟩ := h
  rw [lettersHeld_four_iff] at hl
  have hlen : 1 ≤ r.len.toNat := by omega
  constructor <;> constructor <;> simp_all

theorem ParseInv.blockInv (h : ParseInv r) (hf : r.fault = false) : BlockInv r := by
  obtain ⟨hm, he, hv, htv, hcv, hfields, hdata, htyp, hdone⟩ := h
  constructor <;> constructor <;> simp_all

namespace BlockInv

/-- An operation in progress on an unfaulted block has seen no error (R25 (f)). -/
theorem err_of_busy (h : BlockInv r) (hf : r.fault = false) (hm : r.mode ≠ .idle) : r.err = .ok := by
  by_contra he
  exact hm (h.stated.f hf he).1

theorem ph_of_idle_or_crc_or_type (h : BlockInv r) (hp : r.mode ≠ .parse) (hb : r.mode ≠ .build) : r.ph = .len := by
  by_contra hph
  obtain hm | hm := h.stated.d hph
  · exact hp hm
  · exact hb hm

theorem letters (h : BlockInv r) (ht : r.tvalid = true) : LettersHeld 4 r.type :=
  lettersHeld_four_iff.mpr (h.stated.g ht)

theorem idleInv (h : BlockInv r) (hf : r.fault = false) (hm : r.mode = .idle) : IdleInv r where
  mode := hm
  ph := h.ph_of_idle_or_crc_or_type (by simp [hm]) (by simp [hm])
  cnt := h.position.rest (.inl hm)
  err := by
    have hst := h.stated.h
    have he : r.err ≠ .illegalCommand := fun he => by simp [h.stated.e.mpr he] at hf
    simp only [List.mem_cons, List.not_mem_nil, or_false] at hst ⊢
    tauto
  valid hv := by
    refine ⟨?_, h.stated.a hv⟩
    by_contra he
    simp [(h.stated.f hf he).2] at hv
  letters := h.letters

theorem crcInv (h : BlockInv r) (hf : r.fault = false) (hm : r.mode = .crc) : CrcInv r where
  mode := hm
  ph := h.ph_of_idle_or_crc_or_type (by simp [hm]) (by simp [hm])
  cnt := h.position.rest (.inr hm)
  err := h.err_of_busy hf (by simp [hm])
  valid := h.stated.b (by simp [hm])
  cvalid := h.stated.cCrc hm
  letters := h.letters

theorem typeInv (h : BlockInv r) (hf : r.fault = false) (hm : r.mode = .type) : TypeInv r where
  mode := hm
  ph := h.ph_of_idle_or_crc_or_type (by simp [hm]) (by simp [hm])
  cnt := (h.stated.cType hm).2
  err := h.err_of_busy hf (by simp [hm])
  valid := h.stated.b (by simp [hm])
  tvalid := (h.stated.cType hm).1
  letters := h.position.typeLoad hm

theorem buildInv (h : BlockInv r) (hf : r.fault = false) (hm : r.mode = .build) : BuildInv r := by
  obtain ⟨htv, hcv, hph, -, hcnt⟩ := h.stated.cBuild hm
  exact ⟨hm, hph, hcnt, h.err_of_busy hf (by simp [hm]), h.stated.b (by simp [hm]), htv, hcv, h.letters htv⟩

theorem parseInv (h : BlockInv r) (hf : r.fault = false) (hm : r.mode = .parse) : ParseInv r where
  mode := hm
  err := h.err_of_busy hf (by simp [hm])
  valid := h.stated.b (by simp [hm])
  tvalid := (h.stated.cParse hm).1
  cvalid := (h.stated.cParse hm).2
  fields := h.position.fields hm
  data := h.position.data hm
  typeField := h.position.typeField hm
  typeDone := h.position.typeDone hm

/-- A refusal writes `FAULT` and `ERR` together, and no invariant on the other registers asks that `FAULT` be 1. -/
theorem illegal (h : BlockInv r) : BlockInv (illegal r).regs := by
  obtain ⟨⟨a, b, cParse, cBuild, cCrc, cType, d, -, -, g, -⟩, rest, fields, data, typeLoad, typeField, typeDone⟩ := h
  exact ⟨⟨a, b, cParse, cBuild, cCrc, cType, d, by simp, by simp, g, by simp⟩,
    ⟨rest, fields, data, typeLoad, typeField, typeDone⟩⟩

end BlockInv

theorem blockInv_reset : BlockInv Regs.reset :=
  IdleInv.blockInv ⟨rfl, rfl, rfl, by decide, nofun, nofun⟩ rfl

/-- Every command keeps the invariant; the cases are its outcomes. -/
theorem CommandOutcome.blockInv {i : Instr} {e : Effect} (ho : CommandOutcome r i e) (h : BlockInv r) : BlockInv e.regs := by
  cases ho with
  | refused => exact h.illegal
  | clr => exact blockInv_reset
  | nop | rd => exact h
  | crcs hf hm =>
    obtain ⟨-, hph, hcnt, -, -, hl⟩ := h.idleInv hf hm
    exact CrcInv.blockInv ⟨rfl, hph, hcnt, rfl, rfl, rfl, hl⟩ hf
  | typs hf hm =>
    have hph := (h.idleInv hf hm).ph
    exact TypeInv.blockInv ⟨rfl, hph, by simp, rfl, rfl, rfl, fun _ => lettersHeld_zero _⟩ hf
  | prss hf hm =>
    exact ParseInv.blockInv ⟨rfl, rfl, rfl, rfl, rfl, by simp, nofun, nofun, by simp⟩ hf
  | bldsEmpty hf hm ht =>
    obtain ⟨-, hph, -, -, -, hl⟩ := h.idleInv hf hm
    exact IdleInv.blockInv ⟨hm, hph, rfl, by simp, fun _ => ⟨rfl, ht, rfl⟩, hl⟩ hf
  | blds n hf hm ht hn =>
    have hpos : 0 < n.toNat := count_lt (Nat.zero_le _) hn.symm
    exact BuildInv.blockInv ⟨rfl, rfl, hpos, rfl, rfl, ht, rfl, h.letters ht⟩ hf
  | crcPush b hf hm =>
    obtain ⟨-, hph, hcnt, herr, hv, hcv, hl⟩ := h.crcInv hf hm
    exact CrcInv.blockInv ⟨hm, hph, hcnt, herr, hv, hcv, hl⟩ hf
  | crcEnd hf hm =>
    obtain ⟨-, hph, hcnt, herr, hv, -, hl⟩ := h.crcInv hf hm
    exact IdleInv.blockInv ⟨rfl, hph, hcnt, by simp [herr], by simp [hv], hl⟩ hf
  | typePush b hf hm hc =>
    obtain ⟨-, hph, hcnt, herr, hv, htv, hl⟩ := h.typeInv hf hm
    have hlt : r.cnt.toNat < 4 := count_lt (l := 4#32) hcnt hc
    have hnext := toNat_add_one (l := 4#32) hlt
    refine TypeInv.blockInv ⟨hm, hph, count_add_one_le (l := 4#32) hcnt hc, herr, hv, htv, fun hb => ?_⟩ hf
    simp only [proceed_regs, hnext]
    exact .shiftIn_of_tbad hl hlt hb
  | typeExcess b hf hm hc =>
    obtain ⟨-, hph, hcnt, herr, hv, htv, -⟩ := h.typeInv hf hm
    exact TypeInv.blockInv ⟨hm, hph, hcnt, herr, hv, htv, nofun⟩ hf
  | typeEnd hf hm hc hb =>
    obtain ⟨-, hph, -, herr, hv, -, hl⟩ := h.typeInv hf hm
    have hfour : LettersHeld 4 r.type := by simpa [hc] using hl hb
    exact IdleInv.blockInv ⟨rfl, hph, rfl, by simp [herr], by simp [hv], fun _ => hfour⟩ hf
  | typeEndBad hf hm hc =>
    obtain ⟨-, hph, -, herr, hv, -, -⟩ := h.typeInv hf hm
    exact IdleInv.blockInv ⟨rfl, hph, rfl, by simp, by simp [hv], nofun⟩ hf
  | lenPush b hf hm hp hc =>
    obtain ⟨-, herr, hv, htv, hcv, hfields, -, -, -⟩ := h.parseInv hf hm
    exact ParseInv.blockInv ⟨hm, herr, hv, htv, hcv, fun hd => count_add_one_le (l := 3#32) (hfields hd) hc, by simp [hp],
      by simp [hp], by simp [hp]⟩ hf
  | lenLast b hf hm hp hc =>
    obtain ⟨-, herr, hv, htv, hcv, -, -, -, -⟩ := h.parseInv hf hm
    exact ParseInv.blockInv ⟨hm, herr, hv, htv, hcv, by simp, nofun, fun _ _ => lettersHeld_zero _, by simp⟩ hf
  | typPush b hf hm hp hc =>
    obtain ⟨-, herr, hv, htv, hcv, hfields, -, hl, -⟩ := h.parseInv hf hm
    have hle := hfields (by simp [hp])
    have hlt : r.cnt.toNat < 3 := count_lt (l := 3#32) hle hc
    have hnext := toNat_add_one (l := 3#32) hlt
    refine ParseInv.blockInv ⟨hm, herr, hv, htv, hcv, fun _ => count_add_one_le (l := 3#32) hle hc, by simp [hp],
      fun _ hb => ?_, by simp [hp]⟩ hf
    simp only [proceed_regs, hnext]
    exact .shiftIn_of_tbad (hl hp) (by omega) hb
  | typLast b hf hm hp hc =>
    obtain ⟨-, herr, hv, htv, hcv, -, -, hl, -⟩ := h.parseInv hf hm
    have hthree : r.tbad = false → LettersHeld 3 r.type := by simpa [hc] using hl hp
    refine ParseInv.blockInv ⟨hm, herr, hv, htv, hcv, by simp, fun hdat => ?_, fun _ _ => lettersHeld_zero _, fun _ hb => ?_⟩ hf
    · have hlen : r.len ≠ 0#32 := fun h0 => by simp [h0] at hdat
      exact count_lt (Nat.zero_le _) hlen.symm
    · exact .shiftIn_of_tbad hthree (by omega) hb
  | datPush b hf hm hp hc =>
    obtain ⟨-, herr, hv, htv, hcv, -, hdata, -, hl⟩ := h.parseInv hf hm
    exact ParseInv.blockInv ⟨hm, herr, hv, htv, hcv, by simp [hp], fun _ => count_add_one_lt (hdata hp) hc, by simp [hp], hl⟩ hf
  | datLast b hf hm hp hc =>
    obtain ⟨-, herr, hv, htv, hcv, -, -, -, hl⟩ := h.parseInv hf hm
    exact ParseInv.blockInv ⟨hm, herr, hv, htv, hcv, by simp, nofun, nofun, fun _ => hl (.inl hp)⟩ hf
  | crcField b hf hm hp hc =>
    obtain ⟨-, herr, hv, htv, hcv, hfields, -, -, hl⟩ := h.parseInv hf hm
    exact ParseInv.blockInv ⟨hm, herr, hv, htv, hcv, fun hd => count_add_one_le (l := 3#32) (hfields hd) hc, by simp [hp],
      by simp [hp], hl⟩ hf
  | crcBadType b hf hm hp hc hb => exact IdleInv.blockInv ⟨rfl, rfl, rfl, by simp, nofun, nofun⟩ hf
  | crcDiffers b hf hm hp hc hb hr => exact IdleInv.blockInv ⟨rfl, rfl, rfl, by simp, nofun, nofun⟩ hf
  | crcEqual b hf hm hp hc hb hr =>
    obtain ⟨-, herr, -, -, -, -, -, -, hl⟩ := h.parseInv hf hm
    exact IdleInv.blockInv ⟨rfl, rfl, rfl, by simp [herr], fun _ => ⟨herr, rfl, rfl⟩, fun _ => hl (.inr hp) hb⟩ hf
  | parseEnd hf hm => exact IdleInv.blockInv ⟨rfl, rfl, rfl, by simp, nofun, nofun⟩ hf
  | buildPush b hf hm hc =>
    obtain ⟨-, hph, hcnt, herr, hv, htv, hcv, hl⟩ := h.buildInv hf hm
    exact BuildInv.blockInv ⟨hm, hph, count_add_one_lt hcnt hc, herr, hv, htv, hcv, hl⟩ hf
  | buildLast b hf hm hc =>
    obtain ⟨-, -, -, herr, -, htv, -, hl⟩ := h.buildInv hf hm
    exact IdleInv.blockInv ⟨rfl, rfl, rfl, by simp [herr], fun _ => ⟨herr, htv, rfl⟩, fun _ => hl⟩ hf

end Sys2Proof.Machine
end

section
/-! A step and a run are the block's own, on its registers (R2, R31, R173). -/

namespace Sys2Proof.Machine

/-- A step from a state that meets the invariant gives one that meets it, whatever the word. -/
theorem BlockInv.blockStep {r : Regs} (h : BlockInv r) (w : CmdWord) : BlockInv (blockStep w r).regs := by
  obtain he | ⟨i, -, ho⟩ := blockStep_outcome w r
  · rw [he]
    exact h.illegal
  · exact ho.blockInv h

theorem BlockInv.blockRun {r : Regs} (h : BlockInv r) (ws : List CmdWord) : BlockInv (blockRun ws r).regs := by
  induction ws generalizing r with
  | nil => exact h
  | cons w ws ih => exact ih (h.blockStep w)

/-- `n` steps take the first `n` pending words, in the block's own run, and append its outputs to the two traces. -/
theorem run_eq_blockRun (n : Nat) (s : State) :
    run n s = .next
      { commands := s.commands.drop n
        regs := (blockRun (s.commands.take n) s.regs).regs
        responses := s.responses ++ (blockRun (s.commands.take n) s.regs).responses
        out := s.out ++ (blockRun (s.commands.take n) s.regs).out } := by
  induction n generalizing s with
  | zero => simp [run_zero]
  | succ n ih =>
    cases hc : s.commands with
    | nil => simp [run_of_nil n hc, ih s, hc]
    | cons w ws => simp [run_of_cons n hc, ih]

/-- The run over a command sequence in front of whatever else is pending. -/
theorem run_of_commands {s : State} {ws rest : List CmdWord} (h : s.commands = ws ++ rest) :
    run ws.length s = .next
      { commands := rest
        regs := (blockRun ws s.regs).regs
        responses := s.responses ++ (blockRun ws s.regs).responses
        out := s.out ++ (blockRun ws s.regs).out } := by
  simp [run_eq_blockRun, h]

theorem CommandOutcome.emitted_length_le {r : Regs} {i : Instr} {e : Effect} (ho : CommandOutcome r i e) :
    e.emitted.length ≤ Config.maxEmission := by
  cases ho with
  | bldsEmpty | blds | buildLast => simp [be32_length, Config.maxEmission]
  | _ => simp [Config.maxEmission]

theorem blockStep_emitted_length_le (w : CmdWord) (r : Regs) : (blockStep w r).emitted.length ≤ Config.maxEmission := by
  obtain he | ⟨i, -, ho⟩ := blockStep_outcome w r
  · simp [he]
  · exact ho.emitted_length_le

end Sys2Proof.Machine
end

section
/-! The obligations on the step, on runs and on the invariant. -/

namespace Sys2Proof.Machine

/-- Settles O49: the reset registers are idle, with no flag set. -/
theorem resetMeetsTheInvariant : Obligations.ResetMeetsTheInvariant := by
  unfold Obligations.ResetMeetsTheInvariant
  exact blockInv_reset

/-- Settles O50: each outcome of a command keeps the invariant, and so does the refusal of a word that is none. -/
theorem everyStepKeepsTheInvariant : Obligations.EveryStepKeepsTheInvariant := by
  unfold Obligations.EveryStepKeepsTheInvariant
  intro s t h hstep
  cases hc : s.commands with
  | nil =>
    obtain rfl := Host.Outcome.next.inj ((step_of_nil hc).symm.trans hstep)
    exact h
  | cons w ws =>
    obtain rfl := Host.Outcome.next.inj ((step_of_cons hc).symm.trans hstep)
    exact h.blockStep w

/-- Settles O51: the invariant holds at reset and along the block's own run. -/
theorem reachableStatesMeetTheStatedInvariants : Obligations.ReachableStatesMeetTheStatedInvariants := by
  unfold Obligations.ReachableStatesMeetTheStatedInvariants
  intro n cs
  exact ⟨_, run_eq_blockRun n _, (blockInv_reset.blockRun (cs.take n)).stated⟩

/-- Settles O9: a step on a word commits `blockStep`, whose longest emission is that of an empty chunk. -/
theorem everyStepAnswersOnce : Obligations.EveryStepAnswersOnce := by
  unfold Obligations.EveryStepAnswersOnce
  intro s
  cases hc : s.commands with
  | nil => exact ⟨s, step_of_nil hc, nofun⟩
  | cons w ws =>
    refine ⟨_, step_of_cons hc, fun w' rest h => ?_⟩
    obtain ⟨rfl, rfl⟩ := List.cons.inj h
    exact ⟨rfl, rfl, rfl, rfl, blockStep_emitted_length_le w s.regs⟩

/-- Settles O12: a run is `blockRun` of the pending words and the registers, and nothing else of the state enters it. -/
theorem equalRegistersBehaveAlike : Obligations.EqualRegistersBehaveAlike := by
  unfold Obligations.EqualRegistersBehaveAlike
  refine ⟨fun ws rest s h => run_of_commands h, fun n s t hregs hcommands => ?_⟩
  refine ⟨_, _, (blockRun (s.commands.take n) s.regs).responses, (blockRun (s.commands.take n) s.regs).out,
    run_eq_blockRun n s, run_eq_blockRun n t, ?_⟩
  simp [hregs, hcommands]

end Sys2Proof.Machine
end

section
/-! What every command emits and writes, read off its outcomes (R11 to R15, R20 to R23, R42, R170, R239). -/

namespace Sys2Proof.Machine

/-- What `exec` answers is the committed effect of one of the command's outcomes. -/
theorem outcome_of_exec {i : Instr} {s t : State} (h : exec i s = .next t) :
    t = s.commit (effectOf i s.regs) ∧ CommandOutcome s.regs i (effectOf i s.regs) :=
  ⟨(exec_next_iff i s t).mp h, effectOf_outcome i s.regs⟩

namespace CommandOutcome

variable {r : Regs} {i : Instr} {e : Effect}

/-- OUT grows in an accepted BLDS and in an accepted PUSH of a build only (R42, R48). -/
theorem emission (ho : CommandOutcome r i e) :
    (e.emitted = [] ∧ ¬ (∃ n, i = .blds n ∧ e.resp.st = .ok) ∧ ¬ (∃ b, i = .push b ∧ r.mode = .build ∧ e.resp.st = .ok)) ∨
      (∃ n, i = .blds n ∧ e.resp.st = .ok ∧ e.emitted.length = if n = 0#32 then 12 else 8) ∨
      (∃ b, i = .push b ∧ r.mode = .build ∧ e.resp.st = .ok ∧ e.emitted.head? = some b ∧
        e.emitted.length = if e.resp.done = true then 5 else 1) := by
  cases ho with
  | bldsEmpty => exact .inr (.inl ⟨0#32, rfl, rfl, by simp [be32_length]⟩)
  | blds n hf hm ht hn => exact .inr (.inl ⟨n, rfl, rfl, by simp [be32_length, hn]⟩)
  | buildPush b hf hm | buildLast b hf hm => exact .inr (.inr ⟨b, rfl, hm, rfl, rfl, by simp [be32_length]⟩)
  | _ => exact .inl (by simp [*])

/-- `CRC` is written by CLR and the starts that use it, and by the bytes it covers (R11). -/
theorem crc_writers (ho : CommandOutcome r i e) (hne : e.regs.crc ≠ r.crc) :
    ((i = .clr ∨ i = .crcs ∨ i = .prss) ∧ e.regs.crc = 0xFFFFFFFF#32) ∨
      (∃ n, i = .blds n ∧ e.regs.crc = crcOver 0xFFFFFFFF#32 (be32 r.type)) ∨
      ∃ b, i = .push b ∧ (r.mode = .crc ∨ r.mode = .build ∨ (r.mode = .parse ∧ (r.ph = .typ ∨ r.ph = .dat))) ∧
        e.regs.crc = crcUpdate r.crc b := by
  cases ho with
  | clr | crcs | prss => exact .inl ⟨by simp, rfl⟩
  | bldsEmpty => exact .inr (.inl ⟨0#32, rfl, rfl⟩)
  | blds n => exact .inr (.inl ⟨n, rfl, rfl⟩)
  | crcPush b | typPush b | typLast b | datPush b | datLast b | buildPush b | buildLast b =>
    exact .inr (.inr ⟨b, rfl, by simp [*], rfl⟩)
  | _ => exact absurd rfl hne

/-- `LEN` is written by CLR and the starts that use it, and by the length field of a parse (R12). -/
theorem len_writers (ho : CommandOutcome r i e) (hne : e.regs.len ≠ r.len) :
    ((i = .clr ∨ i = .prss) ∧ e.regs.len = 0#32) ∨ i = .blds e.regs.len ∨
      ∃ b, i = .push b ∧ r.mode = .parse ∧ r.ph = .len ∧ e.regs.len = shiftIn r.len b := by
  cases ho with
  | clr | prss => exact .inl ⟨by simp, rfl⟩
  | bldsEmpty | blds => exact .inr (.inl rfl)
  | lenPush b hf hm hp | lenLast b hf hm hp => exact .inr (.inr ⟨b, rfl, hm, hp, rfl⟩)
  | _ => exact absurd rfl hne

/-- `TYPE` is written by CLR and the starts that load a type, and by the type bytes (R13). -/
theorem type_writers (ho : CommandOutcome r i e) (hne : e.regs.type ≠ r.type) :
    ((i = .clr ∨ i = .typs ∨ i = .prss) ∧ e.regs.type = 0#32) ∨
      ∃ b, i = .push b ∧ (r.mode = .type ∨ (r.mode = .parse ∧ r.ph = .typ)) ∧ e.regs.type = shiftIn r.type b := by
  cases ho with
  | clr | typs | prss => exact .inl ⟨by simp, rfl⟩
  | typePush b | typPush b | typLast b => exact .inr ⟨b, rfl, by simp [*], rfl⟩
  | _ => exact absurd rfl hne

/-- `RCRC` is written by CLR and PRSS, and by the CRC field of a parse (R14). -/
theorem rcrc_writers (ho : CommandOutcome r i e) (hne : e.regs.rcrc ≠ r.rcrc) :
    ((i = .clr ∨ i = .prss) ∧ e.regs.rcrc = 0#32) ∨
      ∃ b, i = .push b ∧ r.mode = .parse ∧ r.ph = .crc ∧ e.regs.rcrc = shiftIn r.rcrc b := by
  cases ho with
  | clr | prss => exact .inl ⟨by simp, rfl⟩
  | crcField b hf hm hp | crcBadType b hf hm hp | crcDiffers b hf hm hp | crcEqual b hf hm hp =>
    exact .inr ⟨b, rfl, hm, hp, rfl⟩
  | _ => exact absurd rfl hne

/-- `CNT` counts the bytes of a field, and goes back to 0 where the field, the operation or the block starts over (R15). -/
theorem cnt_writers (ho : CommandOutcome r i e) (hne : e.regs.cnt ≠ r.cnt) :
    ((i = .clr ∨ i = .typs ∨ i = .prss ∨ (∃ n, i = .blds n) ∨ (i = .endInput ∧ (r.mode = .type ∨ r.mode = .parse))) ∧
        e.regs.cnt = 0#32) ∨
      ∃ b, i = .push b ∧
        (((r.mode = .type ∨ r.mode = .parse ∨ r.mode = .build) ∧ e.regs.cnt = r.cnt + 1#32 ∧
            e.regs.mode = r.mode ∧ e.regs.ph = r.ph) ∨
          ((r.mode = .parse ∨ r.mode = .build) ∧ e.regs.cnt = 0#32 ∧ (e.regs.mode ≠ r.mode ∨ e.regs.ph ≠ r.ph))) := by
  cases ho with
  | clr | typs | prss | bldsEmpty | blds | typeEnd | typeEndBad | parseEnd => exact .inl ⟨by simp [*], rfl⟩
  | typePush b | lenPush b | typPush b | datPush b | crcField b | buildPush b =>
    exact .inr ⟨b, rfl, .inl ⟨by simp [*], rfl, rfl, rfl⟩⟩
  | typLast b hf hm hp hc =>
    refine .inr ⟨b, rfl, .inr ⟨.inl hm, rfl, .inr ?_⟩⟩
    rw [hp, proceed_regs]
    split <;> nofun
  | lenLast b | datLast b | crcBadType b | crcDiffers b | crcEqual b | buildLast b =>
    exact .inr ⟨b, rfl, .inr ⟨by simp [*], rfl, by simp [*]⟩⟩
  | _ => exact absurd rfl hne

/-- `TBAD` is cleared by CLR and the starts that take a type, and set by the type bytes only (R23). -/
theorem tbad_writers (ho : CommandOutcome r i e) (hne : e.regs.tbad ≠ r.tbad) :
    ((i = .clr ∨ i = .typs ∨ i = .prss) ∧ e.regs.tbad = false) ∨
      ∃ b, i = .push b ∧ (r.mode = .type ∨ (r.mode = .parse ∧ r.ph = .typ)) ∧ e.regs.tbad = true := by
  cases ho with
  | clr | typs | prss => exact .inl ⟨by simp, rfl⟩
  | typePush b hf hm | typPush b hf hm | typLast b hf hm =>
    refine .inr ⟨b, rfl, by simp [*], ?_⟩
    cases hb : r.tbad <;> simp_all
  | typeExcess b hf hm => exact .inr ⟨b, rfl, .inl hm, rfl⟩
  | _ => exact absurd rfl hne

/-- `VALID` rises with the last byte of a build or a parse, and in the build of an empty chunk (R20). -/
theorem valid_rises (ho : CommandOutcome r i e) (h0 : r.valid = false) (h1 : e.regs.valid = true) :
    e.resp = ⟨.ok, true, 0#32⟩ ∧ (i = .blds 0#32 ∨ ∃ b, i = .push b ∧ (r.mode = .build ∨ r.mode = .parse)) := by
  cases ho with
  | bldsEmpty => exact ⟨rfl, .inl rfl⟩
  | crcEqual b hf hm => exact ⟨rfl, .inr ⟨b, rfl, .inr hm⟩⟩
  | buildLast b hf hm => exact ⟨rfl, .inr ⟨b, rfl, .inl hm⟩⟩
  | clr | crcs | typs | prss | blds | crcBadType | crcDiffers | parseEnd => cases h1
  | _ => exact absurd (h0.symm.trans h1) Bool.false_ne_true

/-- `TVALID` rises at the end of a type load of four letters and with the last byte of a parse (R21). -/
theorem tvalid_rises (ho : CommandOutcome r i e) (h0 : r.tvalid = false) (h1 : e.regs.tvalid = true) :
    e.resp = ⟨.ok, true, 0#32⟩ ∧ ((i = .endInput ∧ r.mode = .type) ∨ ∃ b, i = .push b ∧ r.mode = .parse) := by
  cases ho with
  | typeEnd hf hm => exact ⟨rfl, .inl ⟨rfl, hm⟩⟩
  | crcEqual b hf hm => exact ⟨rfl, .inr ⟨b, rfl, hm⟩⟩
  | clr | typs | prss | typeEndBad | crcBadType | crcDiffers | parseEnd => cases h1
  | _ => exact absurd (h0.symm.trans h1) Bool.false_ne_true

/-- `CVALID` rises where `VALID` does, and at the end of a standalone CRC (R22). -/
theorem cvalid_rises (ho : CommandOutcome r i e) (h0 : r.cvalid = false) (h1 : e.regs.cvalid = true) :
    e.resp = ⟨.ok, true, 0#32⟩ ∧ (i = .blds 0#32 ∨ (i = .endInput ∧ r.mode = .crc) ∨
      ∃ b, i = .push b ∧ (r.mode = .build ∨ r.mode = .parse)) := by
  cases ho with
  | bldsEmpty => exact ⟨rfl, .inl rfl⟩
  | crcEnd hf hm => exact ⟨rfl, .inr (.inl ⟨rfl, hm⟩)⟩
  | crcEqual b hf hm => exact ⟨rfl, .inr (.inr ⟨b, rfl, .inr hm⟩)⟩
  | buildLast b hf hm => exact ⟨rfl, .inr (.inr ⟨b, rfl, .inl hm⟩)⟩
  | clr | crcs | prss | blds | crcBadType | crcDiffers | parseEnd => cases h1
  | _ => exact absurd (h0.symm.trans h1) Bool.false_ne_true

/-- `VALID` falls in CLR, in every accepted start, and where a parse terminates (R20). -/
theorem valid_falls (ho : CommandOutcome r i e) (h1 : r.valid = true) (h0 : e.regs.valid = false) :
    i = .clr ∨ (e.resp.st = .ok ∧ (i = .crcs ∨ i = .typs ∨ i = .prss ∨ ∃ n, i = .blds n)) ∨
      (r.mode = .parse ∧ e.resp.done = true) := by
  cases ho with
  | clr => exact .inl rfl
  | crcs | typs | prss | blds => exact .inr (.inl ⟨rfl, by simp⟩)
  | crcBadType b hf hm | crcDiffers b hf hm | parseEnd hf hm => exact .inr (.inr ⟨hm, rfl⟩)
  | bldsEmpty | crcEqual | buildLast => cases h0
  | _ => exact absurd (h0.symm.trans h1) Bool.false_ne_true

/-- `TVALID` falls in CLR, in the accepted starts that take a type, and where a parse or a type load fails (R21). -/
theorem tvalid_falls (ho : CommandOutcome r i e) (h1 : r.tvalid = true) (h0 : e.regs.tvalid = false) :
    i = .clr ∨ (e.resp.st = .ok ∧ (i = .typs ∨ i = .prss)) ∨
      ((r.mode = .parse ∨ r.mode = .type) ∧ e.resp.done = true ∧ e.resp.st ≠ .ok) := by
  cases ho with
  | clr => exact .inl rfl
  | typs | prss => exact .inr (.inl ⟨rfl, by simp⟩)
  | typeEndBad hf hm => exact .inr (.inr ⟨.inr hm, rfl, nofun⟩)
  | crcBadType b hf hm | crcDiffers b hf hm | parseEnd hf hm => exact .inr (.inr ⟨.inl hm, rfl, nofun⟩)
  | typeEnd | crcEqual => cases h0
  | _ => exact absurd (h0.symm.trans h1) Bool.false_ne_true

/-- `CVALID` falls in CLR, in the accepted starts that use `CRC`, and where a parse terminates (R22). -/
theorem cvalid_falls (ho : CommandOutcome r i e) (h1 : r.cvalid = true) (h0 : e.regs.cvalid = false) :
    i = .clr ∨ (e.resp.st = .ok ∧ (i = .crcs ∨ i = .prss ∨ ∃ n, i = .blds n)) ∨
      (r.mode = .parse ∧ e.resp.done = true ∧ e.resp.st ≠ .ok) := by
  cases ho with
  | clr => exact .inl rfl
  | crcs | prss | blds => exact .inr (.inl ⟨rfl, by simp⟩)
  | crcBadType b hf hm | crcDiffers b hf hm | parseEnd hf hm => exact .inr (.inr ⟨hm, rfl, nofun⟩)
  | bldsEmpty | crcEnd | crcEqual | buildLast => cases h0
  | _ => exact absurd (h0.symm.trans h1) Bool.false_ne_true

end CommandOutcome

/-- An effect with the `MODE`, `PH` and response of a row is in the table. -/
theorem TransitionRow.of_effect {r : Regs} {i : Instr} {e : Effect} {m : Mode} {p : Phase} {done : Bool} {st : Status} {x : Word}
    (h : r.fault = false ∨ i = .clr ∨ i = .rd 0#32) (row : AcceptedRow r i m p done st) (hm : e.regs.mode = m)
    (hp : e.regs.ph = p) (hresp : e.resp = ⟨st, done, x⟩) :
    TransitionRow r i e.regs.mode e.regs.ph e.resp.done e.resp.st := by
  rw [hm, hp, hresp]
  exact .accepted h row

/-- Under the invariant every outcome is a row of the table, for the invariant gives the `PH` of each mode and the range of each count. -/
theorem CommandOutcome.row {r : Regs} {i : Instr} {e : Effect} (ho : CommandOutcome r i e) (h : BlockInv r) :
    TransitionRow r i e.regs.mode e.regs.ph e.resp.done e.resp.st := by
  cases ho with
  | refused i hl => exact .ill hl rfl rfl rfl rfl
  | clr => exact .of_effect (.inr (.inl rfl)) .clr rfl rfl rfl
  | nop hf => exact .of_effect (.inl hf) .nop rfl rfl rfl
  | rd n x v hf hv hx =>
    exact .of_effect (hf.imp_right fun hn => .inr (congrArg Instr.rd hn)) (.rd n x v hv hx) rfl rfl rfl
  | crcs hf hm => exact .of_effect (.inl hf) (.crcs hm) rfl (h.idleInv hf hm).ph rfl
  | typs hf hm => exact .of_effect (.inl hf) (.typs hm) rfl (h.idleInv hf hm).ph rfl
  | prss hf hm => exact .of_effect (.inl hf) (.prss hm) rfl rfl rfl
  | bldsEmpty hf hm ht => exact .of_effect (.inl hf) (.bldsEmpty hm ht) hm (h.idleInv hf hm).ph rfl
  | blds n hf hm ht hn => exact .of_effect (.inl hf) (.blds n hm ht hn) rfl rfl rfl
  | crcPush b hf hm => exact .of_effect (.inl hf) (.crcPush b hm) hm (h.crcInv hf hm).ph rfl
  | crcEnd hf hm => exact .of_effect (.inl hf) (.crcEnd hm) rfl (h.crcInv hf hm).ph rfl
  | typePush b hf hm | typeExcess b hf hm => exact .of_effect (.inl hf) (.typePush b hm) hm (h.typeInv hf hm).ph rfl
  | typeEnd hf hm hc hb => exact .of_effect (.inl hf) (.typeEnd hm hc hb) rfl (h.typeInv hf hm).ph rfl
  | typeEndBad hf hm hc => exact .of_effect (.inl hf) (.typeEndBad hm hc) rfl (h.typeInv hf hm).ph rfl
  | lenPush b hf hm hp hc =>
    have hlt := count_lt (l := 3#32) ((h.parseInv hf hm).fields (by simp [hp])) hc
    exact .of_effect (.inl hf) (.lenPush b hm hp hlt) hm hp rfl
  | lenLast b hf hm hp hc => exact .of_effect (.inl hf) (.lenLast b hm hp hc) hm rfl rfl
  | typPush b hf hm hp hc =>
    have hlt := count_lt (l := 3#32) ((h.parseInv hf hm).fields (by simp [hp])) hc
    exact .of_effect (.inl hf) (.typPush b hm hp hlt) hm hp rfl
  | typLast b hf hm hp hc =>
    by_cases hl : r.len = 0#32
    · exact .of_effect (.inl hf) (.typLastEmpty b hm hp hc hl) hm (if_pos hl) rfl
    · exact .of_effect (.inl hf) (.typLast b hm hp hc hl) hm (if_neg hl) rfl
  | datPush b hf hm hp hc =>
    have hlt := (h.parseInv hf hm).data hp
    exact .of_effect (.inl hf) (.datPush b hm hp (toNat_add_one hlt ▸ count_add_one_lt hlt hc)) hm hp rfl
  | datLast b hf hm hp hc =>
    have hlt := (h.parseInv hf hm).data hp
    exact .of_effect (.inl hf) (.datLast b hm hp (toNat_add_one hlt ▸ congrArg BitVec.toNat hc)) hm rfl rfl
  | crcField b hf hm hp hc =>
    have hlt := count_lt (l := 3#32) ((h.parseInv hf hm).fields (by simp [hp])) hc
    exact .of_effect (.inl hf) (.crcField b hm hp hlt) hm hp rfl
  | crcBadType b hf hm hp hc hb => exact .of_effect (.inl hf) (.crcBadType b hm hp hc hb) rfl rfl rfl
  | crcDiffers b hf hm hp hc hb hr => exact .of_effect (.inl hf) (.crcDiffers b hm hp hc hb hr) rfl rfl rfl
  | crcEqual b hf hm hp hc hb hr => exact .of_effect (.inl hf) (.crcEqual b hm hp hc hb hr) rfl rfl rfl
  | parseEnd hf hm => exact .of_effect (.inl hf) (.parseEnd hm) rfl rfl rfl
  | buildPush b hf hm hc =>
    obtain ⟨-, hph, hlt, -, -, -, -, -⟩ := h.buildInv hf hm
    exact .of_effect (.inl hf) (.buildPush b hm (toNat_add_one hlt ▸ count_add_one_lt hlt hc)) hm hph rfl
  | buildLast b hf hm hc =>
    have hlt := (h.buildInv hf hm).cnt
    exact .of_effect (.inl hf) (.buildLast b hm (toNat_add_one hlt ▸ congrArg BitVec.toNat hc)) rfl rfl rfl

end Sys2Proof.Machine
end

section
/-! The obligations on what every command writes, emits and keeps. -/

namespace Sys2Proof.Machine

/-- Settles O52: each outcome of a command is a row of the table. -/
theorem onlyTabulatedTransitions : Obligations.OnlyTabulatedTransitions := by
  unfold Obligations.OnlyTabulatedTransitions
  intro i s _ h
  exact ⟨_, _, exec_eq_commit i s, rfl, (effectOf_outcome i s.regs).row h⟩

/-- Settles O54: the emission of each outcome. -/
theorem onlyBuildsEmit : Obligations.OnlyBuildsEmit := by
  unfold Obligations.OnlyBuildsEmit
  intro i s t h
  obtain ⟨rfl, ho⟩ := outcome_of_exec h
  exact ⟨_, _, rfl, rfl, ho.emission⟩

/-- Settles O56: the rises and falls of each flag. -/
theorem validityFlagWriters : Obligations.ValidityFlagWriters := by
  unfold Obligations.ValidityFlagWriters
  intro i s t h
  obtain ⟨rfl, ho⟩ := outcome_of_exec h
  exact ⟨_, rfl, ho.valid_rises, ho.tvalid_rises, ho.cvalid_rises, ho.valid_falls, ho.tvalid_falls, ho.cvalid_falls⟩

/-- Settles O57: the writers of each register. -/
theorem dataRegisterWriters : Obligations.DataRegisterWriters := by
  unfold Obligations.DataRegisterWriters
  intro i s t h
  obtain ⟨rfl, ho⟩ := outcome_of_exec h
  exact ⟨ho.crc_writers, ho.len_writers, ho.type_writers, ho.rcrc_writers, ho.cnt_writers, ho.tbad_writers⟩

/-- Settles O58: a start that leaves `FAULT` at 0 was accepted, and has one outcome. -/
theorem resultsThatSurviveAStart : Obligations.ResultsThatSurviveAStart := by
  unfold Obligations.ResultsThatSurviveAStart
  intro i s t h hfault
  obtain ⟨rfl, ho⟩ := outcome_of_exec h
  rw [commit_regs] at hfault ⊢
  generalize effectOf i s.regs = e at ho hfault
  refine ⟨?_, ?_, ?_, ?_⟩
  · rintro rfl
    cases ho with
    | refused => cases hfault
    | crcs => exact ⟨rfl, rfl, rfl, rfl⟩
  · rintro rfl
    cases ho with
    | refused => cases hfault
    | typs => exact ⟨rfl, rfl, rfl, rfl⟩
  · rintro rfl
    cases ho with
    | refused => cases hfault
    | prss => exact ⟨rfl, rfl, rfl⟩
  · rintro n rfl hn
    cases ho with
    | refused => cases hfault
    | bldsEmpty => exact absurd rfl hn
    | blds n hf hm ht => exact ⟨rfl, ht, ht, rfl, rfl⟩

end Sys2Proof.Machine
end

section
/-! The CRC function byte by byte and word by word (R83, R92), and a chunk and a Png parsed back from their bytes (R128, R188). -/

namespace Sys2Proof.Machine

/-- A word is its low byte and the bits above it. -/
theorem low_xor_high (x : Word) : (x.extractLsb' 0 8).setWidth 32 ^^^ ((x >>> 8) <<< 8) = x := by
  apply BitVec.eq_of_getLsbD_eq
  intro i hi
  by_cases h : i < 8
  · simp [h, hi]
  · have hback : 8 + (i - 8) = i := by omega
    simp [h, hi, hback]

/-- `n` iterations bring a word down again that was moved up by `n` bits, none of which fell out. -/
theorem crcShifts_shiftLeft {n : Nat} {x : Word} (h : ∀ i, 32 ≤ n + i → x.getLsbD i = false) : crcShifts n (x <<< n) = x := by
  rw [crcShifts_of_low_zero n _ fun i hi => by simp [hi]]
  apply BitVec.eq_of_getLsbD_eq
  intro i hi
  by_cases hin : n + i < 32
  · simp [hin, hi]
  · simp [h i (by omega)]

theorem byte_shiftRight (b : Byte) : b.setWidth 32 >>> 8 = 0#32 := by
  apply BitVec.eq_of_toNat_eq
  simp [Nat.shiftRight_eq_div_pow]
  omega

/-- The eight iterations act on the low byte alone, and shift the rest down. -/
theorem crcShifts_eight (x : Word) : crcShifts 8 x = crcTable (x.extractLsb' 0 8) ^^^ (x >>> 8) := by
  have hhigh : crcShifts 8 ((x >>> 8) <<< 8) = x >>> 8 :=
    crcShifts_shiftLeft fun i hi => by rw [BitVec.getLsbD_ushiftRight, BitVec.getLsbD_of_ge x (8 + i) hi]
  calc crcShifts 8 x = crcShifts 8 ((x.extractLsb' 0 8).setWidth 32 ^^^ ((x >>> 8) <<< 8)) := by rw [low_xor_high]
    _ = crcShifts 8 ((x.extractLsb' 0 8).setWidth 32) ^^^ (x >>> 8) := by rw [crcShifts_xor, hhigh]
    _ = crcTable (x.extractLsb' 0 8) ^^^ (x >>> 8) := by rw [crcTable, crcUpdate, BitVec.zero_xor]

/-- Settles O24: the byte enters below bit 8, so it does not reach the part shifted down. -/
theorem crcTableForm : Obligations.CrcTableForm := by
  unfold Obligations.CrcTableForm
  intro c b
  rw [crcUpdate, crcShifts_eight, BitVec.ushiftRight_xor_distrib, byte_shiftRight, BitVec.xor_zero]

/-- A byte that enters after `n` iterations might as well have entered before them, `n` bits higher. -/
theorem crcUpdate_crcShifts {n : Nat} (hn : n ≤ 24) (x : Word) (b : Byte) :
    crcUpdate (crcShifts n x) b = crcShifts (n + 8) (x ^^^ (b.setWidth 32 <<< n)) := by
  have hlater : crcShifts n (b.setWidth 32 <<< n) = b.setWidth 32 :=
    crcShifts_shiftLeft fun i hi => by simp [BitVec.getLsbD_of_ge b i (by omega)]
  rw [crcShifts_add, crcShifts_xor, hlater, crcUpdate]

/-- The bytes of a word, each at its own place. -/
theorem bytes_xor (w : Word) :
    (w.extractLsb' 0 8).setWidth 32 ^^^ ((w.extractLsb' 8 8).setWidth 32 <<< 8 ^^^
      ((w.extractLsb' 16 8).setWidth 32 <<< 16 ^^^ (w.extractLsb' 24 8).setWidth 32 <<< 24)) = w := by
  apply BitVec.eq_of_getLsbD_eq
  intro i hi
  interval_cases i <;> simp

/-- A word fed least significant byte first is exclusive-ored into the remainder as a whole. -/
theorem crcOver_reversed_word (c w : Word) : crcOver c (be32 w).reverse = crcShifts 32 (c ^^^ w) := by
  have hfirst : crcUpdate c (w.extractLsb' 0 8) = crcShifts 8 (c ^^^ (w.extractLsb' 0 8).setWidth 32) := rfl
  simp only [be32, List.reverse_cons, List.reverse_nil, List.nil_append, List.cons_append, crcOver, List.foldl_cons, List.foldl_nil]
  rw [hfirst, crcUpdate_crcShifts (by decide), crcUpdate_crcShifts (by decide), crcUpdate_crcShifts (by decide)]
  simp only [BitVec.xor_assoc]
  exact congrArg (fun x => crcShifts 32 (c ^^^ x)) (bytes_xor w)

/-- Settles O25: the appended CRC is the inverted remainder, so all that is left to shift is 0xFFFFFFFF, whatever the message. -/
theorem crcResidueOfReversedCrc : Obligations.CrcResidueOfReversedCrc := by
  unfold Obligations.CrcResidueOfReversedCrc
  intro m
  have hinverted : crcOver crcInitial m ^^^ crc32 m = 0xFFFFFFFF#32 := by
    rw [crc32, crcFinish, ← BitVec.xor_assoc, BitVec.xor_self, BitVec.zero_xor]
  rw [crcOver_append, crcOver_reversed_word, hinverted]
  decide +kernel

theorem chunkParse_chunkSerialize {t d : List Byte} (ht : isWellFormedType t = true) (hd : d.length ≤ Config.maxDataLength)
    (more : List Byte) : chunkParse (chunkSerialize t d ++ more) = .ok ⟨t, d, crc32 (t ++ d)⟩ := by
  obtain ⟨hfour, hletters⟩ := isWellFormedType_iff.mp ht
  rw [chunkSerialize, chunkParse_frame t d more _ hfour hd, if_neg (by simp [hletters]), if_neg (by simp)]

/-- Settles O47: the fields of a frame are cut out of it again, and both tests are passed. -/
theorem serializedChunkParsesBack : Obligations.SerializedChunkParsesBack := by
  unfold Obligations.SerializedChunkParsesBack
  exact fun t d more ht hd => chunkParse_chunkSerialize ht hd more

/-- A chunk that can be stored in a Png and read back: a legal type, data of an admitted length, and its own CRC. -/
structure WholeChunk (c : Chunk) : Prop where
  type : isWellFormedType c.type = true
  length : c.data.length ≤ Config.maxDataLength
  crc : c.crc = crc32 (c.type ++ c.data)

theorem WholeChunk.chunkParse {c : Chunk} (h : WholeChunk c) (more : List Byte) : chunkParse (chunkBytes c ++ more) = .ok c := by
  have hbytes : chunkBytes c = chunkSerialize c.type c.data := by rw [chunkBytes, chunkSerialize, h.crc]
  rw [hbytes, chunkParse_chunkSerialize h.type h.length, ← h.crc]

theorem WholeChunk.length_chunkBytes {c : Chunk} (h : WholeChunk c) : (chunkBytes c).length = 12 + c.data.length := by
  have hfour := (isWellFormedType_iff.mp h.type).1
  simp [chunkBytes, be32_length, hfour]
  omega

/-- The chunk loop takes the chunks off one by one, given a round for each. -/
theorem pngChunks_of_whole {cs : List Chunk} (h : ∀ c ∈ cs, WholeChunk c) {fuel : Nat} (hfuel : cs.length ≤ fuel) (pos : Nat) :
    pngChunks fuel pos (cs.map chunkBytes).flatten = .ok cs := by
  induction cs generalizing fuel pos with
  | nil => cases fuel <;> simp [pngChunks]
  | cons c cs ih =>
    obtain ⟨fuel, rfl⟩ : ∃ k, fuel = k + 1 := ⟨fuel - 1, by simp at hfuel; omega⟩
    have hc := h c (by simp)
    have hlen := hc.length_chunkBytes
    have hrest := ih (fun x hx => h x (by simp [hx])) (Nat.le_of_succ_le_succ hfuel) (pos + (12 + c.data.length))
    have hlong : 12 ≤ (chunkBytes c ++ (cs.map chunkBytes).flatten).length := by
      rw [List.length_append, hlen]
      omega
    rw [List.map_cons, List.flatten_cons, pngChunks, if_neg fun he => by simp [he] at hlong, if_neg (Nat.not_lt.mpr hlong)]
    simp only [hc.chunkParse, List.drop_left' hlen, hrest]

/-- Every chunk has at least one byte, so a fuel of the buffer's length is enough. -/
theorem length_le_length_flatten {cs : List Chunk} (h : ∀ c ∈ cs, WholeChunk c) :
    cs.length ≤ (cs.map chunkBytes).flatten.length := by
  induction cs with
  | nil => simp
  | cons c cs ih =>
    have hc := (h c (by simp)).length_chunkBytes
    have hrest := ih fun x hx => h x (by simp [hx])
    simp only [List.map_cons, List.flatten_cons, List.length_append, List.length_cons, hc]
    omega

/-- Settles O59: the layout is the definition, and the chunk loop reads whole chunks back in stored order. -/
theorem pngRoundTrip : Obligations.PngRoundTrip := by
  unfold Obligations.PngRoundTrip
  intro p
  refine ⟨rfl, fun h => ?_⟩
  have hwhole : ∀ c ∈ p.chunks, WholeChunk c := fun c hc => by
    obtain ⟨htype, hlength, hcrc⟩ := h c hc
    exact ⟨htype, hlength, hcrc⟩
  have hfuel := length_le_length_flatten hwhole
  have hchunks : pngChunks (pngBytes p).length 8 (p.chunks.map chunkBytes).flatten = .ok p.chunks :=
    pngChunks_of_whole hwhole (by simp only [pngBytes, List.length_append]; omega) 8
  have hsignature : (pngBytes p).take 8 = pngSignature := rfl
  have hrest : (pngBytes p).drop 8 = (p.chunks.map chunkBytes).flatten := rfl
  rw [pngFromBytes, if_neg (by simp [hsignature]), hrest]
  simp only [hchunks]

end Sys2Proof.Machine
end

section
/-! Runs over sequences of commands, among them the pushes of a whole message, and the standalone CRC (R69, R84, R87). -/

namespace Sys2Proof.Machine

/-! Runs over sequences of commands. -/

theorem blockStep_encode {i : Instr} (h : i.WellFormed) (r : Regs) : blockStep (encode i) r = effectOf i r := by
  rw [blockStep, decode_encode h]

/-- A run of one command. -/
theorem blockRun_one {i : Instr} {r : Regs} {e : Effect} (hwf : i.WellFormed) (h : effectOf i r = e) :
    blockRun [encode i] r = ⟨e.regs, [e.resp], e.emitted⟩ := by
  rw [blockRun_cons, blockRun_nil, blockStep_encode hwf, h]
  simp

/-- A run over two sequences is the second run from where the first one ended. -/
theorem blockRun_append {ws us : List CmdWord} {r r1 : Regs} {ps : List Response} {o : List Byte} (h : blockRun ws r = ⟨r1, ps, o⟩) :
    blockRun (ws ++ us) r = ⟨(blockRun us r1).regs, ps ++ (blockRun us r1).responses, o ++ (blockRun us r1).out⟩ := by
  induction ws generalizing r ps o with
  | nil => cases h; rfl
  | cons w ws ih =>
    rw [blockRun_cons] at h
    cases h
    rw [List.cons_append, blockRun_cons, ih rfl]
    simp

/-- The answer of a command after which the operation goes on. -/
abbrev goesOn : Response := ⟨.ok, false, 0#32⟩

/-- The answer of a command that completes the operation. -/
abbrev completed : Response := ⟨.ok, true, 0#32⟩

/-- Pushes that each let the operation go on, `after p` being the registers after the bytes `p` and `echo b` the emission of `b`. -/
theorem blockRun_pushes {m : List Byte} (after : List Byte → Regs) (echo : Byte → List Byte)
    (hpush : ∀ p b q, m = p ++ b :: q → pushEffect b (after p) = emit (echo b) (proceed (after (p ++ [b])))) :
    blockRun (wordsOf (pushes m)) (after []) = ⟨after m, List.replicate m.length goesOn, m.flatMap echo⟩ := by
  suffices h : ∀ q p, m = p ++ q →
      blockRun (wordsOf (pushes q)) (after p) = ⟨after m, List.replicate q.length goesOn, q.flatMap echo⟩ from h m [] rfl
  intro q
  induction q with
  | nil => rintro p rfl; simp [wordsOf, pushes]
  | cons b q ih =>
    intro p hm
    have hone := blockRun_one (i := .push b) rfl (hpush p b q hm)
    have hwords : wordsOf (pushes (b :: q)) = [encode (.push b)] ++ wordsOf (pushes q) := rfl
    rw [hwords, blockRun_append hone]
    simp [ih (p ++ [b]) (by simpa using hm), List.replicate_succ]

/-- What the host finds after a fixed sequence: the block's run over its words, in front of what the host has pending. -/
theorem issueAll_eq_blockRun (is : List Instr) (s : State) :
    issueAll is s = .next
      { commands := s.commands
        regs := (blockRun (wordsOf is) s.regs).regs
        responses := s.responses ++ (blockRun (wordsOf is) s.regs).responses
        out := s.out ++ (blockRun (wordsOf is) s.regs).out } := by
  have hlen : is.length = (wordsOf is).length := by simp [wordsOf]
  rw [issueAll_eq_run, hlen]
  exact run_of_commands (s := { s with commands := wordsOf is ++ s.commands }) rfl

variable {r : Regs}

/-! A standalone CRC. -/

/-- The registers in a standalone CRC after the bytes `p` (R84, R85, R86). -/
def crcTaken (r : Regs) (p : List Byte) : Regs :=
  { r with mode := .crc, crc := crcOver crcInitial p, cvalid := false, valid := false, err := .ok }

theorem push_crcTaken (hf : r.fault = false) (p : List Byte) (b : Byte) :
    pushEffect b (crcTaken r p) = emit [] (proceed (crcTaken r (p ++ [b]))) := by
  refine (push_in_crc b (r := crcTaken r p) hf rfl).trans ?_
  simp only [crcTaken, crcOver_append]
  rfl

/-- The registers after a standalone CRC of `m` (R87). -/
def crcDone (r : Regs) (m : List Byte) : Regs :=
  { r with crc := crcOver crcInitial m, mode := .idle, cvalid := true, valid := false, err := .ok }

theorem blockRun_crcProgram (hf : r.fault = false) (hm : r.mode = .idle) (m : List Byte) :
    blockRun (wordsOf (crcProgram m)) r =
      ⟨crcDone r m, List.replicate (m.length + 1) goesOn ++ [completed, ⟨.ok, false, crc32 m⟩], []⟩ := by
  have hstart := blockRun_one (i := .crcs) (e := proceed (crcTaken r [])) rfl (start_of_idle startCrc hf hm)
  have hpushes := blockRun_pushes (m := m) (crcTaken r) (fun _ => []) fun p b _ _ => push_crcTaken hf p b
  have hend := blockRun_one (i := .endInput) (e := complete (crcDone r m)) rfl (end_in_crc (r := crcTaken r m) hf rfl)
  have hread := blockRun_one (i := .rd 3#32) (e := answer (crc32 m) (crcDone r m)) rfl (rd_crcOut (r := crcDone r m) hf rfl)
  have hwords : wordsOf (crcProgram m) =
      [encode .crcs] ++ (wordsOf (pushes m) ++ ([encode .endInput] ++ [encode (.rd 3#32)])) := by simp [wordsOf, crcProgram]
  rw [hwords, blockRun_append hstart, proceed_regs, blockRun_append hpushes, blockRun_append hend, complete_regs, hread]
  simp [List.replicate_succ]

/-- Settles O23: the remainder after the pushes is that of the message, and CRCOUT inverts it. -/
theorem standaloneCrcReadsCrc32 : Obligations.StandaloneCrcReadsCrc32 := by
  unfold Obligations.StandaloneCrcReadsCrc32
  intro s m rest hf hm hcommands
  have hlen : (wordsOf (crcProgram m)).length = m.length + 3 := by simp [wordsOf, crcProgram, pushes]
  have hcrc : crc32 m ^^^ 0xFFFFFFFF#32 = crcOver crcInitial m := crcFinish_crcFinish _
  rw [← hlen, run_of_commands hcommands, blockRun_crcProgram hf hm, hcrc]
  simp [crcDone, hm]

end Sys2Proof.Machine
end

section
/-! A type load and a build on the block, and the host procedure NEWCHUNK that runs both (R109, R126, R193). -/

namespace Sys2Proof.Machine

variable {r : Regs} {m t d : List Byte}

/-! A type load. -/

/-- The registers in a type load after the bytes `p`, of which only the first four are taken (R102, R104). -/
def typeTaken (r : Regs) (p : List Byte) : Regs :=
  { r with mode := .type, cnt := BitVec.ofNat 32 (min p.length 4), type := unbe32 (p.take 4),
           tbad := !(decide (p.length ≤ 4) && p.all isLetter), tvalid := false, valid := false, err := .ok }

theorem unbe32_append (p : List Byte) (b : Byte) : unbe32 (p ++ [b]) = shiftIn (unbe32 p) b := by
  simp [unbe32]

theorem typeTaken_cnt_eq_four_iff {p : List Byte} : (typeTaken r p).cnt = 4#32 ↔ 4 ≤ p.length := by
  constructor
  · intro h
    have hcount : min p.length 4 % 2 ^ 32 = 4 := congrArg BitVec.toNat h
    omega
  · intro h
    rw [typeTaken, Nat.min_eq_right h]

/-- A fifth or later byte is only remembered in `TBAD`. -/
theorem typeTaken_append_of_ge {p : List Byte} (h : 4 ≤ p.length) (b : Byte) :
    typeTaken r (p ++ [b]) = { typeTaken r p with tbad := true } := by
  have htake : (p ++ [b]).take 4 = p.take 4 := List.take_append_of_le_length h
  have hcnt : min (p ++ [b]).length 4 = min p.length 4 := by simp; omega
  have hlong : decide ((p ++ [b]).length ≤ 4) = false := by simp; omega
  simp only [typeTaken, htake, hcnt, hlong, Bool.false_and, Bool.not_false]

/-- One of the four bytes is shifted in, counted and tested. -/
theorem typeTaken_append_of_lt {p : List Byte} (h : p.length < 4) (b : Byte) :
    typeTaken r (p ++ [b]) =
      { typeTaken r p with type := shiftIn (typeTaken r p).type b, tbad := (typeTaken r p).tbad || !isLetter b,
                           cnt := (typeTaken r p).cnt + 1#32 } := by
  have htype : unbe32 ((p ++ [b]).take 4) = shiftIn (unbe32 (p.take 4)) b := by
    rw [List.take_of_length_le (by simp; omega), List.take_of_length_le h.le, unbe32_append]
  have hcnt : BitVec.ofNat 32 (min (p ++ [b]).length 4) = BitVec.ofNat 32 (min p.length 4) + 1#32 := by
    rw [Nat.min_eq_left (by simp; omega), Nat.min_eq_left h.le, List.length_append, List.length_singleton, BitVec.ofNat_add]
  have hshort : decide ((p ++ [b]).length ≤ 4) = true ∧ decide (p.length ≤ 4) = true := by simp; omega
  simp only [typeTaken, htype, hcnt, hshort.1, hshort.2, Bool.true_and, List.all_append, Bool.not_and, List.all_cons, List.all_nil,
    Bool.and_true]

theorem push_typeTaken (hf : r.fault = false) (p : List Byte) (b : Byte) :
    pushEffect b (typeTaken r p) = emit [] (proceed (typeTaken r (p ++ [b]))) := by
  refine (push_in_type b (r := typeTaken r p) hf rfl).trans ((pushType_eq_proceed b _).trans ?_)
  by_cases h : 4 ≤ p.length
  · rw [if_pos (typeTaken_cnt_eq_four_iff.mpr h), typeTaken_append_of_ge h]
    rfl
  · rw [if_neg fun hc => h (typeTaken_cnt_eq_four_iff.mp hc), typeTaken_append_of_lt (Nat.not_le.mp h)]
    rfl

/-- The bytes are four letters exactly when END finds the count 4 and `TBAD` still 0 (R108, R109). -/
theorem typeTaken_complete_iff : (typeTaken r m).cnt = 4#32 ∧ (typeTaken r m).tbad = false ↔ isWellFormedType m = true := by
  have htbad : (typeTaken r m).tbad = false ↔ m.length ≤ 4 ∧ m.all isLetter = true := by simp [typeTaken]
  rw [typeTaken_cnt_eq_four_iff, htbad, isWellFormedType_iff, ← and_assoc, ← le_antisymm_iff, eq_comm]

/-- A type load ends as END finds it. -/
theorem blockRun_ldType (hf : r.fault = false) (hm : r.mode = .idle) (m : List Byte) :
    blockRun (wordsOf (ldType m)) r =
      ⟨(endType (typeTaken r m)).regs, List.replicate (m.length + 1) goesOn ++ [(endType (typeTaken r m)).resp],
        (endType (typeTaken r m)).emitted⟩ := by
  have hstart := blockRun_one (i := .typs) (e := proceed (typeTaken r [])) rfl (start_of_idle startType hf hm)
  have hpushes := blockRun_pushes (m := m) (typeTaken r) (fun _ => []) fun p b _ _ => push_typeTaken hf p b
  have hend := blockRun_one (i := .endInput) (e := endType (typeTaken r m)) rfl (end_in_type (r := typeTaken r m) hf rfl)
  have hwords : wordsOf (ldType m) = [encode .typs] ++ (wordsOf (pushes m) ++ [encode .endInput]) := by simp [wordsOf, ldType]
  rw [hwords, blockRun_append hstart, proceed_regs, blockRun_append hpushes, hend]
  simp [List.replicate_succ]

theorem endType_typeTaken_of_wellFormed (h : isWellFormedType m = true) :
    endType (typeTaken r m) = complete { typeTaken r m with tvalid := true, mode := .idle, cnt := 0#32 } :=
  if_pos (typeTaken_complete_iff.mpr h)

theorem endType_typeTaken_of_bad (h : isWellFormedType m = false) :
    endType (typeTaken r m) = ⟨{ typeTaken r m with tvalid := false, err := .invalidTypeBytes, mode := .idle, cnt := 0#32 },
      ⟨.invalidTypeBytes, true, 0#32⟩, []⟩ :=
  if_neg fun hc => by simp [typeTaken_complete_iff.mp hc] at h

/-! A build. -/

/-- The registers in a build of `n` bytes after the bytes `p` (R122, R124). -/
def buildTaken (r : Regs) (n : Word) (p : List Byte) : Regs :=
  { r with mode := .build, ph := .dat, len := n, cnt := BitVec.ofNat 32 p.length, crc := crcOver crcInitial (be32 r.type ++ p),
           err := .ok, valid := false, cvalid := false }

/-- The registers after the build of a chunk with the data `d` (R124, and R122 for no data, where `PH` is not written). -/
def buildDone (r : Regs) (d : List Byte) : Regs :=
  { r with mode := .idle, ph := if d = [] then r.ph else .len, len := BitVec.ofNat 32 d.length, cnt := 0#32,
           crc := crcOver crcInitial (be32 r.type ++ d), err := .ok, valid := true, cvalid := true }

theorem ofNat_length_append (p : List Byte) (b : Byte) :
    BitVec.ofNat 32 (p ++ [b]).length = BitVec.ofNat 32 p.length + 1#32 := by
  rw [List.length_append, List.length_singleton, BitVec.ofNat_add]

/-- The remainder over the type and one more byte of data. -/
theorem crcOver_type_append (t p : List Byte) (b : Byte) :
    crcOver crcInitial (t ++ (p ++ [b])) = crcUpdate (crcOver crcInitial (t ++ p)) b := by
  rw [← List.append_assoc, crcOver_append]
  rfl

/-- Every byte but the last is passed on, and the build goes on. -/
theorem push_buildTaken (hf : r.fault = false) {n : Word} {p : List Byte} (hp : p.length + 1 < n.toNat) (b : Byte) :
    pushEffect b (buildTaken r n p) = emit [b] (proceed (buildTaken r n (p ++ [b]))) := by
  have hmore : BitVec.ofNat 32 p.length + 1#32 ≠ n := by
    rintro rfl
    have hle : (BitVec.ofNat 32 (p.length + 1)).toNat ≤ p.length + 1 := Nat.mod_le _ _
    rw [BitVec.ofNat_add] at hle
    omega
  refine (push_in_build b (r := buildTaken r n p) hf rfl).trans ((pushBuild_of_not_last b hmore).trans ?_)
  simp only [buildTaken, ofNat_length_append, crcOver_type_append]

/-- The last byte is followed by the CRC of type and data. -/
theorem push_buildTaken_last (hf : r.fault = false) (p : List Byte) (b : Byte) :
    pushEffect b (buildTaken r (BitVec.ofNat 32 (p ++ [b]).length) p) =
      emit (b :: be32 (crc32 (be32 r.type ++ (p ++ [b])))) (complete (buildDone r (p ++ [b]))) := by
  refine (push_in_build b (r := buildTaken r _ p) hf rfl).trans ((pushBuild_of_last b (ofNat_length_append p b).symm).trans ?_)
  simp only [buildTaken, buildDone, crc32, crcOver_type_append]
  simp

/-- `BLDS` and the data emit the serialized chunk: its frame in the first step, its data as they come, its CRC in the last step. -/
theorem blockRun_buildProgram (hf : r.fault = false) (hm : r.mode = .idle) (ht : r.tvalid = true)
    (hd : d.length ≤ Config.maxDataLength) :
    blockRun (wordsOf (buildProgram d)) r =
      ⟨buildDone r d, List.replicate d.length goesOn ++ [completed], chunkSerialize (be32 r.type) d⟩ := by
  have hblds (n : Word) := blockRun_one (i := .blds n) (r := r) rfl (blds_of_idle_loaded n hf hm ht)
  obtain rfl | ⟨p, b, rfl⟩ := d.eq_nil_or_concat'
  · have hwords : wordsOf (buildProgram []) = [encode (.blds 0#32)] := rfl
    rw [hwords, hblds, startBuild_of_zero rfl]
    simp [buildDone, chunkSerialize, crc32, hm]
  · have hlen : (BitVec.ofNat 32 (p ++ [b]).length).toNat = (p ++ [b]).length :=
      Nat.mod_eq_of_lt (by simp only [Config.maxDataLength] at hd; omega)
    have hpos : BitVec.ofNat 32 (p ++ [b]).length ≠ 0#32 := fun h => by
      rw [h] at hlen
      simp at hlen
    have hpushes := blockRun_pushes (m := p) (buildTaken r (BitVec.ofNat 32 (p ++ [b]).length)) (fun b => [b])
      fun q c q' hq => push_buildTaken hf (by rw [hlen, hq]; simp) c
    have hlast := blockRun_one (i := .push b) rfl (push_buildTaken_last hf p b)
    have hwords : wordsOf (buildProgram (p ++ [b])) =
        [encode (.blds (BitVec.ofNat 32 (p ++ [b]).length))] ++ (wordsOf (pushes p) ++ [encode (.push b)]) := by
      simp [wordsOf, buildProgram, pushes]
    have hstart : (startBuild (BitVec.ofNat 32 (p ++ [b]).length) r).regs = buildTaken r (BitVec.ofNat 32 (p ++ [b]).length) [] := by
      rw [startBuild_of_ne_zero hpos]
      simp [buildTaken]
    rw [hwords, blockRun_append (hblds _), hstart, blockRun_append hpushes, hlast, startBuild_of_ne_zero hpos]
    simp [List.replicate_succ, chunkSerialize]

theorem length_chunkSerialize (t d : List Byte) : (chunkSerialize t d).length = 8 + t.length + d.length := by
  simp [chunkSerialize, be32_length]
  omega

/-! The host procedure. -/

/-- A type load of a well-formed type leaves the type loaded and the block idle. -/
theorem issueAll_ldType_of_wellFormed {s : State} (hf : s.regs.fault = false) (hm : s.regs.mode = .idle)
    (ht : isWellFormedType t = true) :
    ∃ s1, issueAll (ldType t) s = .next s1 ∧ s1.commands = s.commands ∧ s1.out = s.out ∧ s1.lastStatus = some .ok ∧
      s1.regs.fault = false ∧ s1.regs.mode = .idle ∧ s1.regs.tvalid = true ∧ s1.regs.type = unbe32 t := by
  have htake : t.take 4 = t := List.take_of_length_le (isWellFormedType_iff.mp ht).1.le
  refine ⟨_, issueAll_eq_blockRun _ s, ?_⟩
  rw [blockRun_ldType hf hm, endType_typeTaken_of_wellFormed ht]
  refine ⟨rfl, by simp, ?_, hf, rfl, rfl, by simp [typeTaken, htake]⟩
  simp [State.lastStatus, State.lastResponse]

theorem issueAll_ldType_of_bad {s : State} (hf : s.regs.fault = false) (hm : s.regs.mode = .idle) (ht : isWellFormedType t = false) :
    ∃ s1, issueAll (ldType t) s = .next s1 ∧ s1.commands = s.commands ∧ s1.out = s.out ∧ s1.lastStatus = some .invalidTypeBytes ∧
      s1.regs.fault = false ∧ s1.regs.mode = .idle := by
  refine ⟨_, issueAll_eq_blockRun _ s, ?_⟩
  rw [blockRun_ldType hf hm, endType_typeTaken_of_bad ht]
  refine ⟨rfl, by simp, ?_, hf, rfl⟩
  simp [State.lastStatus, State.lastResponse]

theorem issueAll_buildProgram {s : State} (hf : s.regs.fault = false) (hm : s.regs.mode = .idle) (ht : s.regs.tvalid = true)
    (hd : d.length ≤ Config.maxDataLength) :
    ∃ s2, issueAll (buildProgram d) s = .next s2 ∧ s2.commands = s.commands ∧
      s2.out = s.out ++ chunkSerialize (be32 s.regs.type) d ∧ s2.lastResponse = some completed ∧
      s2.regs.fault = false ∧ s2.regs.mode = .idle := by
  refine ⟨_, issueAll_eq_blockRun _ s, ?_⟩
  rw [blockRun_buildProgram hf hm ht hd]
  refine ⟨rfl, rfl, ?_, hf, rfl⟩
  simp [State.lastResponse]

end Sys2Proof.Machine
end

section
/-! The obligations on a type load and on a build. -/

namespace Sys2Proof.Machine

/-- Settles O29: END finds the count 4 and `TBAD` at 0 exactly after four letters. -/
theorem typeLoadAcceptsFourLetters : Obligations.TypeLoadAcceptsFourLetters := by
  unfold Obligations.TypeLoadAcceptsFourLetters
  intro s m rest hf hm hcommands
  have hlen : (wordsOf (ldType m)).length = m.length + 2 := by simp [wordsOf, ldType, pushes]
  have hletters : (m.length = 4 ∧ ∀ b ∈ m, isLetter b = true) ↔ isWellFormedType m = true := by
    rw [isWellFormedType_iff, List.all_eq_true]
  refine ⟨_, hlen ▸ run_of_commands hcommands, ?_⟩
  rw [blockRun_ldType hf hm, hletters]
  cases hwf : isWellFormedType m with
  | true =>
    have hfour := (isWellFormedType_iff.mp hwf).1
    have htake : m.take 4 = m := List.take_of_length_le hfour.le
    rw [endType_typeTaken_of_wellFormed hwf]
    simp [typeTaken, hf, htake, be32_unbe32_of_length hfour]
  | false =>
    rw [endType_typeTaken_of_bad hwf]
    simp [typeTaken, hf]

/-- Settles O34: the run of the build program, for the procedure after the run of the type load. -/
theorem buildEmitsTheSerializedChunk : Obligations.BuildEmitsTheSerializedChunk := by
  unfold Obligations.BuildEmitsTheSerializedChunk
  refine ⟨fun s t d hf hm hd => ⟨fun ht => ?_, fun ht => ?_⟩, fun s d rest hf hm ht hd hcommands => ?_⟩
  · have hfour := (isWellFormedType_iff.mp ht).1
    obtain ⟨s1, hload, hc1, ho1, hst1, hf1, hm1, ht1, htype1⟩ := issueAll_ldType_of_wellFormed hf hm ht
    obtain ⟨s2, hbuild, hc2, ho2, hlast2, hf2, hm2⟩ := issueAll_buildProgram hf1 hm1 ht1 hd
    rw [htype1, be32_unbe32_of_length hfour] at ho2
    have hchunk : (s2.out.drop s1.out.length).take (12 + d.length) = chunkSerialize t d := by
      rw [ho2, List.drop_left, List.take_of_length_le (by rw [length_chunkSerialize]; omega)]
    refine ⟨s2, ?_, by rw [ho2, ho1], by rw [hc2, hc1], hf2, hm2⟩
    simp only [hostNewChunk, hload, hst1, hbuild, hlast2, hchunk, if_true]
  · obtain ⟨s1, hload, hc1, ho1, hst1, hf1, hm1⟩ := issueAll_ldType_of_bad hf hm ht
    refine ⟨s1, ?_, ho1, hc1, hf1, hm1⟩
    simp only [hostNewChunk, hload, hst1]
  · have hlen : (wordsOf (buildProgram d)).length = d.length + 1 := by simp [wordsOf, buildProgram, pushes]
    have hdlen : d.length % 2 ^ 32 = d.length := Nat.mod_eq_of_lt (by simp only [Config.maxDataLength] at hd; omega)
    refine ⟨_, hlen ▸ run_of_commands hcommands, ?_⟩
    rw [blockRun_buildProgram hf hm ht hd]
    refine ⟨rfl, by simp, rfl, by rw [length_chunkSerialize, be32_length], rfl, hf, rfl, ht, rfl, hdlen, rfl, rfl⟩

end Sys2Proof.Machine
end

section
/-! Over accepted commands without CLR, OUT is a row of whole chunks and the bytes of the chunk being built (R173, R236). -/

namespace Sys2Proof.Machine

variable {r : Regs} {i : Instr} {e : Effect} {o p : List Byte}

/-- The concatenation of serialized chunks, each of a well-formed type, with nothing between them. -/
def WholeChunks (o : List Byte) : Prop :=
  ∃ cs : List (List Byte × List Byte),
    (∀ c ∈ cs, isWellFormedType c.1 = true ∧ c.2.length ≤ Config.maxDataLength) ∧
    o = (cs.map (fun c => chunkSerialize c.1 c.2)).flatten

theorem wholeChunks_nil : WholeChunks [] := ⟨[], nofun, rfl⟩

theorem wholeChunks_chunkSerialize {t d : List Byte} (ht : isWellFormedType t = true) (hd : d.length ≤ Config.maxDataLength) :
    WholeChunks (chunkSerialize t d) :=
  ⟨[(t, d)], by simp [ht, hd], by simp⟩

theorem WholeChunks.append {o' : List Byte} (h : WholeChunks o) (h' : WholeChunks o') : WholeChunks (o ++ o') := by
  obtain ⟨cs, hcs, rfl⟩ := h
  obtain ⟨cs', hcs', rfl⟩ := h'
  exact ⟨cs ++ cs', fun c hc => (List.mem_append.mp hc).elim (hcs c) (hcs' c), by simp⟩

/-- `p` is what a build in progress has emitted of its chunk: the length and type fields and the data so far. -/
inductive BuildProgress (r : Regs) : List Byte → Prop where
  | noBuild (hm : r.mode ≠ .build) : BuildProgress r []
  | building (d : List Byte) (hm : r.mode = .build) (hcnt : r.cnt.toNat = d.length)
      (hcrc : r.crc = crcOver crcInitial (be32 r.type ++ d)) : BuildProgress r (be32 r.len ++ be32 r.type ++ d)

theorem BuildProgress.eq_nil (h : BuildProgress r p) (hm : r.mode ≠ .build) : p = [] := by
  cases h with
  | noBuild => rfl
  | building d hb => exact absurd hb hm

theorem isWellFormedType_be32 {w : Word} (h : LettersHeld 4 w) : isWellFormedType (be32 w) = true := by
  have hletters := lettersHeld_four_iff.mp h
  refine isWellFormedType_iff.mpr ⟨be32_length w, ?_⟩
  simp only [be32, List.all_cons, List.all_nil, Bool.and_true, Bool.and_eq_true]
  exact ⟨hletters 0 (by decide), hletters 1 (by decide), hletters 2 (by decide), hletters 3 (by decide)⟩

/-- An accepted command other than CLR carries a build on, begins one or completes its chunk, and emits nothing else. -/
theorem CommandOutcome.buildProgress (ho : CommandOutcome r i e) (h : BlockInv r) (hclr : i ≠ .clr)
    (hacc : e.resp.st ≠ .illegalCommand) (hp : BuildProgress r p) :
    ∃ o p', WholeChunks o ∧ p ++ e.emitted = o ++ p' ∧ BuildProgress e.regs p' := by
  have quiet (hb : r.mode ≠ .build) (hb' : e.regs.mode ≠ .build) (he : e.emitted = []) :
      ∃ o p', WholeChunks o ∧ p ++ e.emitted = o ++ p' ∧ BuildProgress e.regs p' :=
    ⟨[], [], wholeChunks_nil, by rw [hp.eq_nil hb, he], .noBuild hb'⟩
  cases ho with
  | refused => exact absurd rfl hacc
  | clr => exact absurd rfl hclr
  | nop | rd => exact ⟨[], p, wholeChunks_nil, by simp, hp⟩
  | bldsEmpty hf hm ht =>
    obtain rfl := hp.eq_nil (by simp [hm])
    refine ⟨_, [], wholeChunks_chunkSerialize (d := []) (isWellFormedType_be32 (h.letters ht)) (by simp), ?_, .noBuild (by simp [hm])⟩
    simp [chunkSerialize, crc32]
  | blds n hf hm ht hn =>
    obtain rfl := hp.eq_nil (by simp [hm])
    exact ⟨[], _, wholeChunks_nil, by simp, .building [] rfl rfl (by simp)⟩
  | buildPush b hf hm hc =>
    cases hp with
    | noBuild hb => exact absurd hm hb
    | building d _ hcnt hcrc =>
      refine ⟨[], _, wholeChunks_nil, ?_, .building (d ++ [b]) hm ?_ ?_⟩
      · simp
      · have hlt := (h.buildInv hf hm).cnt
        simp [toNat_add_one hlt, hcnt]
      · simp [crcOver_type_append, hcrc]
  | buildLast b hf hm hc =>
    obtain ⟨-, -, hlt, -, -, -, -, hl⟩ := h.buildInv hf hm
    cases hp with
    | noBuild hb => exact absurd hm hb
    | building d _ hcnt hcrc =>
      have hlen : (d ++ [b]).length = r.len.toNat := by
        rw [← hc, toNat_add_one hlt, hcnt, List.length_append, List.length_singleton]
      have hd : (d ++ [b]).length ≤ Config.maxDataLength := by
        rw [hlen]
        exact Nat.le_sub_one_of_lt r.len.isLt
      refine ⟨_, [], wholeChunks_chunkSerialize (isWellFormedType_be32 hl) hd, ?_, .noBuild nofun⟩
      rw [chunkSerialize, hlen, BitVec.ofNat_toNat, BitVec.setWidth_eq, crc32, crcOver_type_append, ← hcrc]
      simp
  | _ => exact quiet (by simp [*]) (by simp [*]) rfl

/-- A word that is accepted and is not CLR's is a command other than CLR, accepted. -/
theorem outcome_of_accepted {w : CmdWord} (hclr : w ≠ encode .clr) (hacc : (blockStep w r).resp.st ≠ .illegalCommand) :
    ∃ i, i ≠ .clr ∧ CommandOutcome r i (blockStep w r) := by
  obtain he | ⟨i, hd, ho⟩ := blockStep_outcome w r
  · exact absurd (by rw [he]; rfl) hacc
  · exact ⟨i, fun hi => hclr (by rw [← encode_of_decode hd, hi]), ho⟩

/-- A run that begins within a chunk and ends idle completes that chunk, and every other that it begins. -/
theorem blockRun_wholeChunks {ws : List CmdWord} (h : BlockInv r) (hp : BuildProgress r p) (hclr : encode .clr ∉ ws)
    (hacc : AllAccepted (blockRun ws r).responses) (hidle : (blockRun ws r).regs.mode = .idle) :
    WholeChunks (p ++ (blockRun ws r).out) := by
  induction ws generalizing r p with
  | nil =>
    obtain rfl := hp.eq_nil fun hm => by simp [blockRun_nil, hm] at hidle
    exact wholeChunks_nil
  | cons w ws ih =>
    rw [blockRun_cons] at hacc hidle ⊢
    obtain ⟨hw, hws⟩ := List.forall_mem_cons.mp hacc
    obtain ⟨hclr_w, hclr_ws⟩ := not_or.mp (mt List.mem_cons.mpr hclr)
    obtain ⟨i, hi, ho⟩ := outcome_of_accepted (Ne.symm hclr_w) hw
    obtain ⟨o, p', hchunks, heq, hp'⟩ := ho.buildProgress h hi hw hp
    rw [← List.append_assoc, heq, List.append_assoc]
    exact hchunks.append (ih (h.blockStep w) hp' hclr_ws hws hidle)

/-- Settles O35: a run that starts idle starts with no chunk begun. -/
theorem acceptedRunsEmitWholeChunks : Obligations.AcceptedRunsEmitWholeChunks := by
  unfold Obligations.AcceptedRunsEmitWholeChunks
  intro n s t ps h hm hclr hrun hresponses hacc hidle
  obtain rfl := Host.Outcome.next.inj ((run_eq_blockRun n s).symm.trans hrun)
  obtain rfl := List.append_cancel_left hresponses
  have hnone : encode .clr ∉ s.commands.take n := fun hmem => hclr (List.mem_of_mem_take hmem)
  obtain ⟨cs, hcs, hout⟩ := blockRun_wholeChunks h (.noBuild (by simp [hm])) hnone hacc hidle
  exact ⟨cs, hcs, congrArg (s.out ++ ·) hout⟩

end Sys2Proof.Machine
end

section
/-! A parse on the block, byte by byte, against the function `chunk_parse` on the same bytes (R135, R147, R194). -/

namespace Sys2Proof.Machine

variable {p l t d c : List Byte} {r : Regs}

/-- The registers of a parse in the phase `ph` with `n` bytes of its field taken, the four fields of the frame holding the bytes
`l`, `t`, `d`, `c` so far (R137 to R143). -/
def parseRegs (ph : Phase) (l t d c : List Byte) (n : Nat) : Regs where
  crc := crcOver crcInitial (t ++ d)
  len := unbe32 l
  type := unbe32 t
  rcrc := unbe32 c
  cnt := BitVec.ofNat 32 n
  mode := .parse
  ph := ph
  err := .ok
  valid := false
  tvalid := false
  cvalid := false
  tbad := !t.all isLetter
  fault := false

/-- `r` is where a parse stands after the bytes `p`, which do not fill the frame yet. -/
inductive ParseTaken : List Byte → Regs → Prop where
  | len (l : List Byte) (hl : l.length < 4) : ParseTaken l (parseRegs .len l [] [] [] l.length)
  | typ (l t : List Byte) (hl : l.length = 4) (ht : t.length < 4) : ParseTaken (l ++ t) (parseRegs .typ l t [] [] t.length)
  | dat (l t d : List Byte) (hl : l.length = 4) (ht : t.length = 4) (hd : d.length < (unbe32 l).toNat) :
      ParseTaken (l ++ t ++ d) (parseRegs .dat l t d [] d.length)
  | crc (l t d c : List Byte) (hl : l.length = 4) (ht : t.length = 4) (hd : d.length = (unbe32 l).toNat) (hc : c.length < 4) :
      ParseTaken (l ++ t ++ d ++ c) (parseRegs .crc l t d c c.length)

/-- The four fields of a chunk frame, each full. -/
structure FullFrame (l t d c : List Byte) : Prop where
  len : l.length = 4
  typ : t.length = 4
  dat : d.length = (unbe32 l).toNat
  crc : c.length = 4

theorem ofNat_ne_three {n : Nat} (h : n < 3) : BitVec.ofNat 32 n ≠ 3#32 := by
  interval_cases n <;> decide

/-! The bytes of the four fields, one by one. -/

theorem push_parseRegs (ph : Phase) (l t d c : List Byte) (n : Nat) (b : Byte) :
    pushEffect b (parseRegs ph l t d c n) = pushParse b (parseRegs ph l t d c n) :=
  push_in_parse b rfl rfl

theorem push_parseRegs_len (h : l.length < 3) (b : Byte) :
    pushEffect b (parseRegs .len l [] [] [] l.length) = proceed (parseRegs .len (l ++ [b]) [] [] [] (l ++ [b]).length) := by
  rw [push_parseRegs, pushParse_of_len b rfl, pushLength_of_not_last b (ofNat_ne_three h)]
  simp [parseRegs, unbe32_append, ← BitVec.ofNat_add]

theorem push_parseRegs_len_last (h : l.length = 3) (b : Byte) :
    pushEffect b (parseRegs .len l [] [] [] l.length) = proceed (parseRegs .typ (l ++ [b]) [] [] [] 0) := by
  rw [push_parseRegs, pushParse_of_len b rfl, pushLength_of_last b (by rw [parseRegs, h])]
  simp [parseRegs, unbe32_append]

theorem push_parseRegs_typ (h : t.length < 3) (b : Byte) :
    pushEffect b (parseRegs .typ l t [] [] t.length) = proceed (parseRegs .typ l (t ++ [b]) [] [] (t ++ [b]).length) := by
  rw [push_parseRegs, pushParse_of_typ b rfl, pushTypeField_of_not_last b (ofNat_ne_three h), ← tbad_or_not_eq_ite]
  simp [parseRegs, unbe32_append, crcOver, ← BitVec.ofNat_add]

theorem push_parseRegs_typ_last (h : t.length = 3) (b : Byte) :
    pushEffect b (parseRegs .typ l t [] [] t.length) =
      proceed (parseRegs (if unbe32 l = 0#32 then .crc else .dat) l (t ++ [b]) [] [] 0) := by
  rw [push_parseRegs, pushParse_of_typ b rfl, pushTypeField_of_last b (by rw [parseRegs, h]), ← tbad_or_not_eq_ite]
  simp [parseRegs, unbe32_append, crcOver]

theorem push_parseRegs_dat (h : d.length + 1 < (unbe32 l).toNat) (b : Byte) :
    pushEffect b (parseRegs .dat l t d [] d.length) = proceed (parseRegs .dat l t (d ++ [b]) [] (d ++ [b]).length) := by
  have hmore : BitVec.ofNat 32 d.length + 1#32 ≠ unbe32 l := fun he => by
    rw [← BitVec.ofNat_add] at he
    have hle : (unbe32 l).toNat ≤ d.length + 1 := he ▸ Nat.mod_le _ _
    omega
  rw [push_parseRegs, pushParse_of_dat b rfl, pushData_of_not_last b hmore]
  simp [parseRegs, crcOver, ← BitVec.ofNat_add]

theorem push_parseRegs_dat_last (h : d.length + 1 = (unbe32 l).toNat) (b : Byte) :
    pushEffect b (parseRegs .dat l t d [] d.length) = proceed (parseRegs .crc l t (d ++ [b]) [] 0) := by
  have hlast : BitVec.ofNat 32 d.length + 1#32 = unbe32 l := by
    rw [← BitVec.ofNat_add, h, BitVec.ofNat_toNat, BitVec.setWidth_eq]
  rw [push_parseRegs, pushParse_of_dat b rfl, pushData_of_last b hlast]
  simp [parseRegs, crcOver]

theorem push_parseRegs_crc (h : c.length < 3) (b : Byte) :
    pushEffect b (parseRegs .crc l t d c c.length) = proceed (parseRegs .crc l t d (c ++ [b]) (c ++ [b]).length) := by
  rw [push_parseRegs, pushParse_of_crc b rfl, pushReceivedCrc_of_not_last b (ofNat_ne_three h)]
  simp [parseRegs, unbe32_append, ← BitVec.ofNat_add]

/-- The fourth CRC byte meets a full frame. -/
theorem push_parseRegs_crc_last (h : c.length = 3) (b : Byte) :
    pushEffect b (parseRegs .crc l t d c c.length) = finishParse (parseRegs .crc l t d (c ++ [b]) 3) := by
  rw [push_parseRegs, pushParse_of_fourthCrc b rfl (by rw [parseRegs, h]), parseRegs, parseRegs, unbe32_append, h]

/-- A byte either leaves the frame unfilled and the parse going on, or fills it. -/
theorem ParseTaken.push (h : ParseTaken p r) (b : Byte) :
    (∃ r', pushEffect b r = proceed r' ∧ ParseTaken (p ++ [b]) r') ∨
      ∃ l t d c, p ++ [b] = l ++ t ++ d ++ c ∧ FullFrame l t d c ∧ pushEffect b r = finishParse (parseRegs .crc l t d c 3) := by
  cases h with
  | len hl =>
    by_cases hlast : p.length = 3
    · exact .inl ⟨_, push_parseRegs_len_last hlast b, by simpa using ParseTaken.typ (p ++ [b]) [] (by simp [hlast]) (by simp)⟩
    · exact .inl ⟨_, push_parseRegs_len (by omega) b, .len (p ++ [b]) (by simp; omega)⟩
  | typ l t hl ht =>
    by_cases hlast : t.length = 3
    · refine .inl ⟨_, push_parseRegs_typ_last hlast b, ?_⟩
      have hfour : (t ++ [b]).length = 4 := by simp [hlast]
      by_cases h0 : unbe32 l = 0#32
      · simpa [h0] using ParseTaken.crc l (t ++ [b]) [] [] hl hfour (by simp [h0]) (by simp)
      · simpa [h0] using ParseTaken.dat l (t ++ [b]) [] hl hfour (count_lt (Nat.zero_le _) (Ne.symm h0))
    · exact .inl ⟨_, push_parseRegs_typ (by omega) b, by simpa using ParseTaken.typ l (t ++ [b]) hl (by simp; omega)⟩
  | dat l t d hl ht hd =>
    by_cases hlast : d.length + 1 = (unbe32 l).toNat
    · exact .inl ⟨_, push_parseRegs_dat_last hlast b, by simpa using ParseTaken.crc l t (d ++ [b]) [] hl ht (by simp [hlast]) (by simp)⟩
    · exact .inl ⟨_, push_parseRegs_dat (by omega) b, by simpa using ParseTaken.dat l t (d ++ [b]) hl ht (by simp; omega)⟩
  | crc l t d c hl ht hd hc =>
    by_cases hlast : c.length = 3
    · exact .inr ⟨l, t, d, c ++ [b], by simp, ⟨hl, ht, hd, by simp [hlast]⟩, push_parseRegs_crc_last hlast b⟩
    · exact .inl ⟨_, push_parseRegs_crc (by omega) b, by simpa using ParseTaken.crc l t d (c ++ [b]) hl ht hd (by simp; omega)⟩

theorem ParseTaken.endEffect (h : ParseTaken p r) : endEffect r = endParse r := by
  cases h <;> exact end_in_parse rfl rfl

/-! What `chunk_parse` makes of the same bytes. -/

/-- An unfilled frame is too short for `chunk_parse`. -/
theorem ParseTaken.chunkParse (h : ParseTaken p r) : chunkParse p = .error .insufficientData := by
  refine chunkParse_of_short ?_
  cases h with
  | len hl => omega
  | typ l t hl ht =>
    rw [List.length_append]
    omega
  | dat l t d hl ht hd =>
    simp only [List.append_assoc, List.take_left' hl, List.length_append]
    omega
  | crc l t d c hl ht hd hc =>
    simp only [List.append_assoc, List.take_left' hl, List.length_append]
    omega

/-- A full frame is parsed by its two tests, whatever follows. -/
theorem FullFrame.chunkParse (h : FullFrame l t d c) (more : List Byte) :
    chunkParse (l ++ t ++ d ++ c ++ more) =
      if t.all isLetter = false then .error .invalidTypeBytes
      else if crc32 (t ++ d) ≠ unbe32 c then .error .crcMismatch
      else .ok ⟨t, d, unbe32 c⟩ := by
  obtain ⟨hl, ht, hd, hc⟩ := h
  have hmax : d.length ≤ Config.maxDataLength := hd ▸ Nat.le_sub_one_of_lt (unbe32 l).isLt
  have hfield : be32 (BitVec.ofNat 32 d.length) = l := by
    rw [hd, BitVec.ofNat_toNat, BitVec.setWidth_eq, be32_unbe32_of_length hl]
  have hframe := chunkParse_frame t d more (unbe32 c) ht hmax
  rwa [hfield, be32_unbe32_of_length hc] at hframe

/-! The loop. -/

/-- What the host procedure PARSE has to leave, from `s`, for the bytes `m`, of which it pushed `k` (R147). -/
structure ParseRealised (m : List Byte) (s t : State) (k : Nat) : Prop where
  commands : t.commands = s.commands
  out : t.out = s.out
  mode : t.regs.mode = .idle
  ok : ∀ c, chunkParse m = .ok c →
    k = 12 + c.data.length ∧ t.responses = s.responses ++ List.replicate k goesOn ++ [completed] ∧
      t.regs.valid = true ∧ t.regs.tvalid = true ∧ t.regs.cvalid = true ∧ t.regs.len.toNat = c.data.length ∧
      be32 t.regs.type = c.type ∧ t.regs.crc ^^^ 0xFFFFFFFF#32 = c.crc ∧ c.crc = crc32 (c.type ++ c.data)
  error : ∀ e, chunkParse m = .error e →
    t.regs.valid = false ∧ t.regs.tvalid = false ∧ t.regs.cvalid = false ∧ t.regs.err = e ∧
      (e = .insufficientData → k = m.length ∧
        t.responses = s.responses ++ List.replicate (k + 1) goesOn ++ [⟨.insufficientData, true, 0#32⟩]) ∧
      (e ≠ .insufficientData → k = 12 + (unbe32 (m.take 4)).toNat ∧
        t.responses = s.responses ++ List.replicate k goesOn ++ [⟨e, true, 0#32⟩])

/-- The parse that was started in `s` has come to `s1` with the bytes `p`. -/
structure ParseProgress (s : State) (p : List Byte) (s1 : State) : Prop where
  commands : s1.commands = s.commands
  out : s1.out = s.out
  responses : s1.responses = s.responses ++ List.replicate (p.length + 1) goesOn
  taken : ParseTaken p s1.regs

variable {s s1 : State}

theorem issue_eq_commit_effectOf {i : Instr} (h : i.WellFormed) (s : State) : issue i s = .next (s.commit (effectOf i s.regs)) := by
  rw [issue_eq_commit, blockStep_encode h]

theorem lastDone_commit (s : State) (e : Effect) : (s.commit e).lastDone = e.resp.done := by
  simp [State.lastDone, State.lastResponse]

theorem ParseProgress.push (h : ParseProgress s p s1) {b : Byte} {r' : Regs} (ht : ParseTaken (p ++ [b]) r') :
    ParseProgress s (p ++ [b]) (s1.commit (proceed r')) where
  commands := h.commands
  out := by simp [h.out]
  responses := by simp [h.responses, List.replicate_succ']
  taken := ht

/-- END on an unfilled frame reports that the bytes ran out (R146). -/
theorem ParseProgress.realised_of_end (h : ParseProgress s p s1) :
    ParseRealised p s (s1.commit (endParse s1.regs)) p.length where
  commands := h.commands
  out := by simp [endParse, h.out]
  mode := rfl
  ok c hc := by simp [h.taken.chunkParse] at hc
  error e he := by
    obtain rfl : .insufficientData = e := by simpa [h.taken.chunkParse] using he
    refine ⟨rfl, rfl, rfl, rfl, fun _ => ⟨rfl, ?_⟩, fun hne => absurd rfl hne⟩
    simp [endParse, h.responses]

/-- A termination by the byte that fills the frame (R205). -/
theorem ParseProgress.realised_of_terminate (h : ParseProgress s p s1) {m : List Byte} {code : Status}
    (hparse : chunkParse m = .error code) (hcode : code ≠ .insufficientData)
    (hk : p.length + 1 = 12 + (unbe32 (m.take 4)).toNat) (r : Regs) :
    ParseRealised m s (s1.commit (terminate code r)) (p.length + 1) where
  commands := h.commands
  out := by simp [h.out]
  mode := rfl
  ok c hc := nomatch hparse.symm.trans hc
  error e he := by
    cases hparse.symm.trans he
    exact ⟨rfl, rfl, rfl, rfl, fun hc => absurd hc hcode, fun _ => ⟨hk, by simp [h.responses]⟩⟩

/-- The byte that fills the frame ends the parse as `chunk_parse` ends on the frame, whatever bytes follow (R145, R210). -/
theorem ParseProgress.realised_of_full (h : ParseProgress s p s1) {b : Byte} (hp : p ++ [b] = l ++ t ++ d ++ c)
    (hframe : FullFrame l t d c) (more : List Byte) :
    ParseRealised (l ++ t ++ d ++ c ++ more) s (s1.commit (finishParse (parseRegs .crc l t d c 3))) (p.length + 1) := by
  have hparse := hframe.chunkParse more
  obtain ⟨hl, ht, hd, hc⟩ := hframe
  have hk : p.length + 1 = 12 + d.length := by
    have hlen := congrArg List.length hp
    simp only [List.length_append, List.length_singleton] at hlen
    omega
  have hk' : p.length + 1 = 12 + (unbe32 ((l ++ t ++ d ++ c ++ more).take 4)).toNat := by
    simp only [List.append_assoc, List.take_left' hl]
    omega
  obtain ⟨hbad, he⟩ | ⟨hok, hne, he⟩ | ⟨hok, heq, he⟩ := finishParse_cases (parseRegs .crc l t d c 3) <;> rw [he]
  · have hletters : t.all isLetter = false := by simpa [parseRegs] using hbad
    rw [if_pos hletters] at hparse
    exact h.realised_of_terminate hparse (by decide) hk' _
  · have hletters : ¬ t.all isLetter = false := by simpa [parseRegs] using hok
    have hmismatch : crc32 (t ++ d) ≠ unbe32 c := Ne.symm hne
    rw [if_neg hletters, if_pos hmismatch] at hparse
    exact h.realised_of_terminate hparse (by decide) hk' _
  · have hletters : ¬ t.all isLetter = false := by simpa [parseRegs] using hok
    have hmatch : unbe32 c = crc32 (t ++ d) := heq
    rw [if_neg hletters, if_neg (not_not.mpr hmatch.symm)] at hparse
    refine ⟨h.commands, by simp [h.out], rfl, fun x hx => ?_, fun e herr => nomatch hparse.symm.trans herr⟩
    cases hparse.symm.trans hx
    exact ⟨hk, by simp [h.responses], rfl, rfl, rfl, hd.symm, be32_unbe32_of_length ht, hmatch.symm, hmatch⟩

theorem finishParse_done (r : Regs) : (finishParse r).resp.done = true := by
  obtain ⟨-, h⟩ | ⟨-, -, h⟩ | ⟨-, -, h⟩ := finishParse_cases r <;> rw [h] <;> rfl

/-- The loop stops at the byte that fills the frame, or issues END after the last byte. -/
theorem parseLoop_realised (bs : List Byte) (h : ParseProgress s p s1) :
    ∃ t k, parseLoop bs p.length s1 = .next (t, k) ∧ ParseRealised (p ++ bs) s t k := by
  induction bs generalizing p s1 with
  | nil =>
    have hend : effectOf .endInput s1.regs = endParse s1.regs := h.taken.endEffect
    refine ⟨_, _, ?_, by simpa using h.realised_of_end⟩
    simp only [parseLoop, issue_eq_commit_effectOf (i := .endInput) rfl, hend]
  | cons b bs ih =>
    simp only [parseLoop, issue_eq_commit_effectOf (i := .push b) rfl, lastDone_commit]
    obtain ⟨r', he, ht⟩ | ⟨l, t, d, c, hp, hframe, he⟩ := h.taken.push b
    · have heffect : effectOf (.push b) s1.regs = proceed r' := he
      obtain ⟨t, k, hloop, hreal⟩ := ih (h.push ht)
      refine ⟨t, k, ?_, by simpa using hreal⟩
      simpa [heffect] using hloop
    · have heffect : effectOf (.push b) s1.regs = finishParse (parseRegs .crc l t d c 3) := he
      have hbytes : p ++ b :: bs = l ++ t ++ d ++ c ++ bs := by
        rw [← hp, List.append_assoc, List.singleton_append]
      rw [heffect, finishParse_done, hbytes]
      exact ⟨_, _, rfl, h.realised_of_full hp hframe bs⟩

/-- PRSS starts the parse with no byte taken (R137). -/
theorem parseProgress_of_start (hf : s.regs.fault = false) (hm : s.regs.mode = .idle) :
    ParseProgress s [] (s.commit (effectOf .prss s.regs)) := by
  have hstart : effectOf .prss s.regs = proceed (parseRegs .len [] [] [] [] 0) := by
    refine (start_of_idle startParse hf hm).trans ?_
    simp only [startParse, hf]
    rfl
  rw [hstart]
  exact ⟨rfl, by simp, rfl, .len [] (by simp)⟩

/-- Settles O44: PRSS starts the parse, the loop realises it, and the two results of `chunk_parse` are the two clauses. -/
theorem parseRealisesChunkParse : Obligations.ParseRealisesChunkParse := by
  unfold Obligations.ParseRealisesChunkParse
  intro s m hf hm
  obtain ⟨t, k, hloop, hreal⟩ := parseLoop_realised m (parseProgress_of_start hf hm)
  refine ⟨t, k, ?_, hreal.commands, hreal.out, hreal.mode, ?_⟩
  · simp only [hostParseChunk, issue_eq_commit_effectOf (i := .prss) rfl]
    exact hloop
  · cases hparse : chunkParse m with
    | ok c => exact hreal.ok c hparse
    | error e => exact hreal.error e hparse

end Sys2Proof.Machine
end
